-- ==== Sys2Proof/Word.lean ====
section
/-! DEFINITION. The machine word: a signed integer of 64 bits in two's complement (spec/00_scope.md R5, R9, R10). -/

namespace Sys2Proof

/-- A register value, a program word or a stack word (R5: `XLEN = 64`). Its integer value is `BitVec.toInt` (R9). -/
abbrev Word := BitVec 64

/-- One byte of rendered output or of a program image, both outside the core (R54, R170). -/
abbrev Byte := BitVec 8

/-- The least word, `MIN = -2^63` (R9). -/
abbrev minWord : Int := -9223372036854775808

/-- The greatest word, `MAX = 2^63 - 1` (R9). -/
abbrev maxWord : Int := 9223372036854775807

/-- The word made of the low 64 bits of an integer, read in two's complement (R10: `sext_64(v[63:0])`). -/
abbrev wordOfInt (v : Int) : Word := BitVec.ofInt 64 v

end Sys2Proof
end

