-- ==== Sys2Proof/Config.lean ====
section
/-! DEFINITION. The parameters of the machine: the types of the tables and of the policies that the spec asks a model
to keep as fields of its configuration (spec/00_scope.md R7, R8; spec/92_eei_decisions.md). A `Config` is plain data and
stands in the machine's state, constant during a run. -/

namespace Sys2Proof

/-- The 30 mnemonics, in the order of R77. -/
inductive Mnemonic where
  | add | sub | mult | div | addi | subi | multi | divi | inc | dec
  | showReg | printReg | set | mov | push | pop | load | store
  | jmp | jz | jnz | cmp | je | jne | jlt | jgt | call | ret | stop | nop
  deriving DecidableEq, Repr

/-- The name of a register (R21): `gpr k` is the general register `R(k+1)`, so `R1` is `gpr 0` and `R16` is `gpr 15`;
`rem` is the remainder register, `cmpf` the comparison flag. -/
inductive RegName where
  | gpr (k : Fin 16)
  | rem
  | cmpf
  deriving DecidableEq, Repr

/-- `OVERFLOW_POLICY` (R7, R101; decision D5): fault on a signed result outside the word range, or wrap. -/
inductive OverflowPolicy where
  | fault
  | wrap
  deriving DecidableEq, Repr

/-- `RA_OFFSET` (decision D10; spec/90_conflicts.md C1): CALL at `a` pushes `a + 2`, or `a + 1`. -/
inductive RaOffset where
  | two
  | one
  deriving DecidableEq, Repr

/-- `DIV_REM_ORDER` (decision D8): which of a division's two writes lands last when the destination is REM. -/
inductive DivRemOrder where
  | remainderLast
  | quotientLast
  deriving DecidableEq, Repr

/-- `FLAG_TEST` (decision D26): a flag-conditional jump compares exactly, or what it does on a flag outside -1, 0, 1 is
left open. -/
inductive FlagTest where
  | exact
  | unstated
  deriving DecidableEq, Repr

/-- The four conditions of JE, JNE, JLT and JGT (R149). -/
inductive FlagCond where
  | equal
  | notEqual
  | less
  | greater
  deriving DecidableEq, Repr

/-- The opcode word of each mnemonic, indexed by its place in R77 (`OPC`, R7). -/
abbrev OpcodeMap := Vector Word 30

/-- The register named by each of the indices 0 to 17 (`REGIDX`, R7). -/
abbrev RegisterMap := Vector RegName 18

/-- The parameters of one machine (R7, R8 and the parameters listed at R8's end that concern the core). -/
structure Config where
  /-- `OPC`, the map from mnemonics to opcode words (R7, R77). -/
  opc : OpcodeMap
  /-- `REGIDX`, the map between register indices and register names (R7, R21). -/
  regidx : RegisterMap
  /-- `OVERFLOW_POLICY` (R7, R101). -/
  overflow : OverflowPolicy
  /-- `STACK_LIMIT`: the greatest number of stack words; `none` is unbounded (R8). -/
  stackLimit : Option Nat
  /-- `FRAME_LIMIT`: the greatest number of frame-list entries; `none` is unbounded (R8). -/
  frameLimit : Option Nat
  /-- `RA_OFFSET` (D10). -/
  raOffset : RaOffset
  /-- `DIV_REM_ORDER` (D8). -/
  divRemOrder : DivRemOrder
  /-- `FLAG_TEST` (D26). -/
  flagTest : FlagTest
  deriving DecidableEq, Repr

/-- The FREE VALUE of `FLAG_TEST = unstated`: whether a jump with this condition is taken on a flag outside -1, 0, 1.
Nothing constrains it (spec/93_implementation_defined.md U4; notes/assumptions/10.md). -/
opaque Config.freeFlagTest : FlagCond → Word → Bool

/-- The FREE VALUE of a RET under `RA_OFFSET = 1` that pops `MAX`: the index it resumes at. Decision D10 gives the popped word
plus 1, which is no word there, and the spec states no result; nothing constrains this one (DESIGN CHOICE,
notes/assumptions/21.md). -/
opaque Config.freeResume : Word → Word

end Sys2Proof
end

