-- ==== Sys2Proof/Syntax.lean ====
section
/-! DEFINITION. The instructions of the VM word ISA with their operand words (spec/30_encoding.md R71, R77). Every
operand is a whole program word (R70): a register operand is kept as the word it is, because it is checked when the
instruction executes and the fault records it (R73, R184). -/

namespace Sys2Proof

/-- One constructor per row of the opcode table. `rd`, `rs`, `r1`, `r2` are register operand words (R73), `imm` an
immediate (R74), `addr` a target (R75). -/
inductive Instr where
  /-- R102 -/
  | add (rd rs : Word)
  /-- R103 -/
  | sub (rd rs : Word)
  /-- R104 -/
  | mult (rd rs : Word)
  /-- R105 -/
  | div (rd rs : Word)
  /-- R106 -/
  | addi (rd imm : Word)
  /-- R107 -/
  | subi (rd imm : Word)
  /-- R108 -/
  | multi (rd imm : Word)
  /-- R109 -/
  | divi (rd imm : Word)
  /-- R110 -/
  | inc (rd : Word)
  /-- R111 -/
  | dec (rd : Word)
  /-- R170 -/
  | showReg (rs : Word)
  /-- R171 -/
  | printReg (rs : Word)
  /-- R120 -/
  | set (rd imm : Word)
  /-- R121 -/
  | mov (rd rs : Word)
  /-- R130 -/
  | push (imm : Word)
  /-- R131 -/
  | pop
  /-- R132 -/
  | load (rs : Word)
  /-- R133 -/
  | store (rd : Word)
  /-- R140 -/
  | jmp (addr : Word)
  /-- R141 -/
  | jz (rs addr : Word)
  /-- R142 -/
  | jnz (rs addr : Word)
  /-- R143 -/
  | cmp (r1 r2 : Word)
  /-- R144 -/
  | je (addr : Word)
  /-- R145 -/
  | jne (addr : Word)
  /-- R146 -/
  | jlt (addr : Word)
  /-- R147 -/
  | jgt (addr : Word)
  /-- R160 -/
  | call (addr : Word)
  /-- R162 -/
  | ret
  /-- R172 -/
  | stop
  /-- R173 -/
  | nop
  deriving DecidableEq, Repr

end Sys2Proof
end

