-- ==== Sys2Proof/WellFormed.lean ====
section
/-! DEFINITION. Which instructions are well formed: every register operand word is an index 0 to 17 (spec/30_encoding.md
R73, R80). No immediate and no target is ill formed (R74, R75). The machine gives an ill-formed instruction its meaning
too: it raises InvalidRegister when it executes (R184). -/

namespace Sys2Proof

/-- The word is a register index: `0 <= word <= 17` as a signed integer (R73). -/
def isRegIndex (w : Word) : Bool :=
  decide (0 ≤ w.toInt) && decide (w.toInt ≤ 17)

/-- The register operand words of an instruction, in operand order (R71: formats R, RR, RI, RA). -/
def Instr.regOperands : Instr → List Word
  | .add rd rs => [rd, rs]
  | .sub rd rs => [rd, rs]
  | .mult rd rs => [rd, rs]
  | .div rd rs => [rd, rs]
  | .addi rd _ => [rd]
  | .subi rd _ => [rd]
  | .multi rd _ => [rd]
  | .divi rd _ => [rd]
  | .inc rd => [rd]
  | .dec rd => [rd]
  | .showReg rs => [rs]
  | .printReg rs => [rs]
  | .set rd _ => [rd]
  | .mov rd rs => [rd, rs]
  | .push _ => []
  | .pop => []
  | .load rs => [rs]
  | .store rd => [rd]
  | .jmp _ => []
  | .jz rs _ => [rs]
  | .jnz rs _ => [rs]
  | .cmp r1 r2 => [r1, r2]
  | .je _ => []
  | .jne _ => []
  | .jlt _ => []
  | .jgt _ => []
  | .call _ => []
  | .ret => []
  | .stop => []
  | .nop => []

/-- Every register operand is a register index (R73). -/
def Instr.wellFormed (i : Instr) : Bool :=
  i.regOperands.all isRegIndex

end Sys2Proof
end

