-- ==== Sys2Proof/Decode.lean ====
section
/-! DEFINITION. From program words to instructions and back (spec/30_encoding.md): the decided tables of opcode numbers
and register indices (R77, R21), the seven formats (R71), the decoder, total on every list of words and rejecting by
name, the encoder, and the program image's bytes at the loader boundary (spec/20_memory.md R54, R63). -/

namespace Sys2Proof

/-- A mnemonic's place in the table of R77. -/
def Mnemonic.index : Mnemonic → Fin 30
  | .add => 0
  | .sub => 1
  | .mult => 2
  | .div => 3
  | .addi => 4
  | .subi => 5
  | .multi => 6
  | .divi => 7
  | .inc => 8
  | .dec => 9
  | .showReg => 10
  | .printReg => 11
  | .set => 12
  | .mov => 13
  | .push => 14
  | .pop => 15
  | .load => 16
  | .store => 17
  | .jmp => 18
  | .jz => 19
  | .jnz => 20
  | .cmp => 21
  | .je => 22
  | .jne => 23
  | .jlt => 24
  | .jgt => 25
  | .call => 26
  | .ret => 27
  | .stop => 28
  | .nop => 29

/-- All mnemonics, in the order of R77. -/
def allMnemonics : List Mnemonic :=
  [.add, .sub, .mult, .div, .addi, .subi, .multi, .divi, .inc, .dec] ++
  [.showReg, .printReg, .set, .mov, .push, .pop, .load, .store] ++
  [.jmp, .jz, .jnz, .cmp, .je, .jne, .jlt, .jgt, .call, .ret, .stop, .nop]

/-- The decided opcode numbers, 0 to 29 (R77; decision D1). -/
def opcodeTable : OpcodeMap :=
  #v[0, 1, 2, 3, 4, 5, 6, 7, 8, 9, 10, 11, 12, 13, 14, 15, 16, 17, 18, 19, 20, 21, 22, 23, 24, 25, 26, 27, 28, 29]

/-- The decided register indices: `R1..R16` at 0 to 15, `REM` at 16, `CMPF` at 17 (R21; decision D2). -/
def registerTable : RegisterMap :=
  #v[.gpr 0, .gpr 1, .gpr 2, .gpr 3, .gpr 4, .gpr 5, .gpr 6, .gpr 7, .gpr 8, .gpr 9, .gpr 10, .gpr 11, .gpr 12,
    .gpr 13, .gpr 14, .gpr 15, .rem, .cmpf]

/-- The spec's decided parameters (R7 and D1, D2, D5, D8, D10, D26), with both open limits unbounded
(R8; notes/assumptions/4.md). -/
def decidedConfig : Config where
  opc := opcodeTable
  regidx := registerTable
  overflow := .fault
  stackLimit := none
  frameLimit := none
  raOffset := .two
  divRemOrder := .remainderLast
  flagTest := .exact

/-- The opcode word of a mnemonic under an opcode map. -/
def opcodeOf (opc : OpcodeMap) (m : Mnemonic) : Word :=
  opc[m.index]

/-- The mnemonic whose opcode is the whole word, if there is one (R72: all 64 bits are compared). -/
def mnemonicOf (opc : OpcodeMap) (w : Word) : Option Mnemonic :=
  allMnemonics.find? fun m => opcodeOf opc m == w

/-- The map gives different mnemonics different opcode words (R77: `OPC` is injective). -/
def OpcodeMap.Injective (opc : OpcodeMap) : Prop :=
  ∀ m n : Mnemonic, opcodeOf opc m = opcodeOf opc n → m = n

/-- The seven formats (R71). -/
inductive Format where
  | Z | R | I | A | RR | RI | RA
  deriving DecidableEq, Repr

/-- The format of each instruction (R71, R77). -/
def Mnemonic.format : Mnemonic → Format
  | .add => .RR
  | .sub => .RR
  | .mult => .RR
  | .div => .RR
  | .addi => .RI
  | .subi => .RI
  | .multi => .RI
  | .divi => .RI
  | .inc => .R
  | .dec => .R
  | .showReg => .R
  | .printReg => .R
  | .set => .RI
  | .mov => .RR
  | .push => .I
  | .pop => .Z
  | .load => .R
  | .store => .R
  | .jmp => .A
  | .jz => .RA
  | .jnz => .RA
  | .cmp => .RR
  | .je => .A
  | .jne => .A
  | .jlt => .A
  | .jgt => .A
  | .call => .A
  | .ret => .Z
  | .stop => .Z
  | .nop => .Z

/-- The number of words of an instruction of a format (R71). -/
def Format.words : Format → Nat
  | .Z => 1
  | .R => 2
  | .I => 2
  | .A => 2
  | .RR => 3
  | .RI => 3
  | .RA => 3

/-- The mnemonic of an instruction. -/
def Instr.mnemonic : Instr → Mnemonic
  | .add _ _ => .add
  | .sub _ _ => .sub
  | .mult _ _ => .mult
  | .div _ _ => .div
  | .addi _ _ => .addi
  | .subi _ _ => .subi
  | .multi _ _ => .multi
  | .divi _ _ => .divi
  | .inc _ => .inc
  | .dec _ => .dec
  | .showReg _ => .showReg
  | .printReg _ => .printReg
  | .set _ _ => .set
  | .mov _ _ => .mov
  | .push _ => .push
  | .pop => .pop
  | .load _ => .load
  | .store _ => .store
  | .jmp _ => .jmp
  | .jz _ _ => .jz
  | .jnz _ _ => .jnz
  | .cmp _ _ => .cmp
  | .je _ => .je
  | .jne _ => .jne
  | .jlt _ => .jlt
  | .jgt _ => .jgt
  | .call _ => .call
  | .ret => .ret
  | .stop => .stop
  | .nop => .nop

/-- The number of words of an instruction, from its opcode alone (R76). -/
def Instr.words (i : Instr) : Nat :=
  i.mnemonic.format.words

/-- Why a list of words is no instruction. -/
inductive Reject where
  /-- There is no opcode word at all: the fetch is outside the program (R188). -/
  | noOpcode
  /-- The first word is none of the 30 opcodes (R72, R78). -/
  | invalidOpcode (w : Word)
  /-- Operand word number `k` (1 or 2) is past the end of the program (R79). -/
  | missingOperand (k : Nat)
  deriving DecidableEq, Repr

/-- An instruction with no operand word (format Z). -/
def readZero (i : Instr) (_ : List Word) : Except Reject Instr :=
  .ok i

/-- An instruction with one operand word, from the words after its opcode (formats R, I, A). -/
def readOne (mk : Word → Instr) : List Word → Except Reject Instr
  | [] => .error (.missingOperand 1)
  | a :: _ => .ok (mk a)

/-- An instruction with two operand words, fetched in order (formats RR, RI, RA; R79). -/
def readTwo (mk : Word → Word → Instr) : List Word → Except Reject Instr
  | [] => .error (.missingOperand 1)
  | [_] => .error (.missingOperand 2)
  | a :: b :: _ => .ok (mk a b)

/-- The instruction of a mnemonic, its operands taken from the words after the opcode (R71). -/
def readOperands (m : Mnemonic) (ws : List Word) : Except Reject Instr :=
  match m with
  | .add => readTwo .add ws
  | .sub => readTwo .sub ws
  | .mult => readTwo .mult ws
  | .div => readTwo .div ws
  | .addi => readTwo .addi ws
  | .subi => readTwo .subi ws
  | .multi => readTwo .multi ws
  | .divi => readTwo .divi ws
  | .inc => readOne .inc ws
  | .dec => readOne .dec ws
  | .showReg => readOne .showReg ws
  | .printReg => readOne .printReg ws
  | .set => readTwo .set ws
  | .mov => readTwo .mov ws
  | .push => readOne .push ws
  | .pop => readZero .pop ws
  | .load => readOne .load ws
  | .store => readOne .store ws
  | .jmp => readOne .jmp ws
  | .jz => readTwo .jz ws
  | .jnz => readTwo .jnz ws
  | .cmp => readTwo .cmp ws
  | .je => readOne .je ws
  | .jne => readOne .jne ws
  | .jlt => readOne .jlt ws
  | .jgt => readOne .jgt ws
  | .call => readOne .call ws
  | .ret => readZero .ret ws
  | .stop => readZero .stop ws
  | .nop => readZero .nop ws

/-- The instruction at the head of a list of words: the opcode word first, then its operands (R70, R72, R76, R79). Words
after the instruction are not looked at. -/
def decode (opc : OpcodeMap) : List Word → Except Reject Instr
  | [] => .error .noOpcode
  | w :: ws =>
    match mnemonicOf opc w with
    | none => .error (.invalidOpcode w)
    | some m => readOperands m ws

/-- The operand words of an instruction, in order (R71). -/
def Instr.operands : Instr → List Word
  | .add rd rs => [rd, rs]
  | .sub rd rs => [rd, rs]
  | .mult rd rs => [rd, rs]
  | .div rd rs => [rd, rs]
  | .addi rd imm => [rd, imm]
  | .subi rd imm => [rd, imm]
  | .multi rd imm => [rd, imm]
  | .divi rd imm => [rd, imm]
  | .inc rd => [rd]
  | .dec rd => [rd]
  | .showReg rs => [rs]
  | .printReg rs => [rs]
  | .set rd imm => [rd, imm]
  | .mov rd rs => [rd, rs]
  | .push imm => [imm]
  | .pop => []
  | .load rs => [rs]
  | .store rd => [rd]
  | .jmp addr => [addr]
  | .jz rs addr => [rs, addr]
  | .jnz rs addr => [rs, addr]
  | .cmp r1 r2 => [r1, r2]
  | .je addr => [addr]
  | .jne addr => [addr]
  | .jlt addr => [addr]
  | .jgt addr => [addr]
  | .call addr => [addr]
  | .ret => []
  | .stop => []
  | .nop => []

/-- The words of an instruction: its opcode number followed by its operands (R70, R82). -/
def encode (opc : OpcodeMap) (i : Instr) : List Word :=
  opcodeOf opc i.mnemonic :: i.operands

/-- Word number `k` of a number whose bits 63..0 are the first word, 127..64 the second, 191..128 the third. -/
def tableWord (k w : Nat) : Word :=
  BitVec.ofNat 64 (w / 2 ^ (64 * k))

/-- The three words of an instruction given as the opcode table numbers its bits: of `w` the low `nbits` bits count, every
bit above them is 0 (three words, the longest instruction, R70). -/
def tableWords (nbits w : Nat) : List Word :=
  let v := w % 2 ^ nbits
  [tableWord 0 v, tableWord 1 v, tableWord 2 v]

/-- The instruction the decoder reads, under the decided opcode numbers, from an instruction whose bits are `w`. -/
def decodeTableWord (nbits w : Nat) : Option Instr :=
  match decode opcodeTable (tableWords nbits w) with
  | .ok i => some i
  | .error _ => none

/-- The word whose bits `8*j+7` down to `8*j` are byte `j` of the eight bytes: little-endian (R54; decision D25). -/
def wordOfBytes (b0 b1 b2 b3 b4 b5 b6 b7 : Byte) : Word :=
  b7 ++ b6 ++ b5 ++ b4 ++ b3 ++ b2 ++ b1 ++ b0

/-- The eight bytes of a word in the program image, the least significant first (R54). -/
def bytesOfWord (w : Word) : List Byte :=
  [w.extractLsb' 0 8, w.extractLsb' 8 8, w.extractLsb' 16 8, w.extractLsb' 24 8,
    w.extractLsb' 32 8, w.extractLsb' 40 8, w.extractLsb' 48 8, w.extractLsb' 56 8]

/-- The program words of an image: word `i` is bytes `8*i .. 8*i+7`; `none` where the byte length is no multiple of 8, the
image the loader rejects (R63). -/
def wordsOfImage : List Byte → Option (List Word)
  | [] => some []
  | b0 :: b1 :: b2 :: b3 :: b4 :: b5 :: b6 :: b7 :: rest =>
    (wordsOfImage rest).map (wordOfBytes b0 b1 b2 b3 b4 b5 b6 b7 :: ·)
  | _ => none

/-- The image of a program: its words' bytes in order (R54, R63). -/
def imageOfWords (ws : List Word) : List Byte :=
  ws.flatMap bytesOfWord

end Sys2Proof
end

