-- ==== Sys2Proof/Machine/State.lean ====
section
/-! DEFINITION. The state of the machine (spec/10_state.md), the reasons a step can stop, and the state after reset
(R39, R210). The state is the tuple `(x, pc, S, sp, F, st, O)` together with the program and the parameters of the launch,
which no step changes (notes/assumptions/2.md). `sp` is stored once, as the length of the stack (R30). -/

namespace Sys2Proof.Machine

/-- The nine fault causes (spec/60_exceptions.md R181). -/
inductive Cause where
  /-- code 1: R182 -/
  | stackUnderflow
  /-- code 2: R183 -/
  | callStackUnderflow
  /-- code 3: R184 -/
  | invalidRegister
  /-- code 4: R185 -/
  | divisionByZero
  /-- code 5: R186 -/
  | malformedProgram
  /-- code 6: R187 -/
  | invalidOpcode
  /-- code 7: R188 -/
  | fetchOutOfRange
  /-- code 8: R189 -/
  | arithmeticOverflow
  /-- code 9: R190 -/
  | resourceExhaustion
  deriving DecidableEq, Repr

/-- What `raise <Cause>(info)` carries (R14): the cause and its info word. -/
structure Trap where
  cause : Cause
  info : Word
  deriving DecidableEq, Repr

/-- The run state `st` (R34): running, halted, or faulted with the cause, the index of the faulting instruction's opcode
word and the info word. -/
inductive RunState where
  | running
  | halted
  | faulted (cause : Cause) (pc info : Word)
  deriving DecidableEq, Repr

/-- The kind of an output event (R15, R35). -/
inductive EventKind where
  /-- a numeric line -/
  | num
  /-- one character -/
  | chr
  deriving DecidableEq, Repr

/-- One event of the output stream (R35): its kind and the whole word. -/
structure Event where
  kind : EventKind
  value : Word
  deriving DecidableEq, Repr

/-- The register file: 16 general registers, the remainder register and the comparison flag (R20, R21, R24, R25). -/
structure RegFile where
  /-- `R1` to `R16`: `R(k+1)` is entry `k`. -/
  gpr : Vector Word 16
  /-- `REM` -/
  rem : Word
  /-- `CMPF` -/
  cmpf : Word
  deriving DecidableEq, Repr

/-- The machine's state. -/
structure State where
  /-- the parameters of the machine (R7, R8), constant during a run -/
  cfg : Config
  /-- the program `P`; its length is `L` (R6, R51), constant during a run -/
  prog : List Word
  /-- the register file `x` (R20) -/
  regs : RegFile
  /-- the instruction pointer, a word index (R27, R29) -/
  pc : Word
  /-- the operand stack `S[0], ..., S[sp]`, the top word last (R30) -/
  stack : List Word
  /-- the frame-pointer list `F`, the most recent entry last (R32) -/
  frames : List Int
  /-- the run state (R34) -/
  st : RunState
  /-- the output stream `O`, the first event first (R35) -/
  output : List Event
  deriving DecidableEq, Repr

/-- Why `step` has no next state. Both are raised by `step` alone, in the two terminal states, where the spec defines no
step (R34, R213: `if st != running then no step`); a fault of the spec is NOT one of these: it is the next state with `st`
faulted (notes/assumptions/1.md). Safe: the machine of the spec makes no step there either. -/
inductive Fault where
  /-- raised by `step` in `halted`: a halted machine makes no further step (R172). Safe. -/
  | noStepHalted
  /-- raised by `step` in `faulted`: a faulted machine makes no further step (R192, R193). Safe. -/
  | noStepFaulted
  deriving DecidableEq, Repr

/-- Why an instruction has no meaning. -/
inductive Refusal where
  /-- raised by `exec` in the arm of an instruction that has no meaning yet; no arm does. Safe. -/
  | notModelled (mnemonic : String)
  deriving DecidableEq, Repr

/-- The machine right after reset, with no program loaded and the decided parameters (R39, R210): all 18 registers 0,
`pc = 0`, the stack, the frame list and the output empty, `st = running`. How a program comes to stand in `prog` is in
notes/assumptions/3.md. -/
def State.reset : State where
  cfg := decidedConfig
  prog := []
  regs := { gpr := Vector.replicate 16 0, rem := 0, cmpf := 0 }
  pc := 0
  stack := []
  frames := []
  st := .running
  output := []

end Sys2Proof.Machine
end

