-- ==== Sys2Proof/Machine/Ops.lean ====
section
/-! DEFINITION. The shared operations: reading and writing registers (spec/00_scope.md R11), the two stack primitives
(R13), the output port (R15), moving `pc` (R16), raising a fault (R14; spec/60_exceptions.md R192) and the launch and
reset of the machine (spec/70_reset_and_hazards.md R210, R211, R217). -/

namespace Sys2Proof.Machine

/-- The value of a register. -/
def RegFile.get (x : RegFile) (r : RegName) : Word :=
  match r with
  | .gpr k => x.gpr[k]
  | .rem => x.rem
  | .cmpf => x.cmpf

/-- The register file with one register written. -/
def RegFile.put (x : RegFile) (r : RegName) (v : Word) : RegFile :=
  match r with
  | .gpr k => { x with gpr := x.gpr.set k v }
  | .rem => { x with rem := v }
  | .cmpf => { x with cmpf := v }

/-- `x[r]` (R11). No register is hardwired (R22). -/
def State.reg (s : State) (r : RegName) : Word :=
  s.regs.get r

/-- `x[r] <- v` (R11). -/
def State.setReg (s : State) (r : RegName) (v : Word) : State :=
  { s with regs := s.regs.put r v }

/-- `pc <- t` (R16): the index of the next opcode fetch. -/
def State.jump (s : State) (t : Word) : State :=
  { s with pc := t }

/-- `pc <- pc + n`: past an instruction of `n` words (R28). -/
def State.advance (s : State) (n : Nat) : State :=
  { s with pc := s.pc + BitVec.ofNat 64 n }

/-- `L`, the length of the program in words (R6). -/
def State.progLength (s : State) : Nat :=
  s.prog.length

/-- `sp`, the index of the top word, -1 when the stack is empty (R30). -/
def State.sp (s : State) : Int :=
  (s.stack.length : Int) - 1

/-- `n` more words fit on the stack: `sp + 1 + n <= STACK_LIMIT` (R13, R160). -/
def State.stackRoom (s : State) (n : Nat) : Bool :=
  match s.cfg.stackLimit with
  | none => true
  | some limit => decide (s.stack.length + n ≤ limit)

/-- One more entry fits in the frame list: `length(F) + 1 <= FRAME_LIMIT` (R160). -/
def State.frameRoom (s : State) : Bool :=
  match s.cfg.frameLimit with
  | none => true
  | some limit => decide (s.frames.length + 1 ≤ limit)

/-- The words appended to the stack, the last one on top. -/
def State.append (s : State) (ws : List Word) : State :=
  { s with stack := s.stack ++ ws }

/-- The trap of a push that finds no room: it records `sp` (R190). -/
def exhausted (s : State) : Trap :=
  ⟨.resourceExhaustion, wordOfInt s.sp⟩

/-- The trap of a pop that finds no word: it records `sp` (R182). -/
def underflow (s : State) : Trap :=
  ⟨.stackUnderflow, wordOfInt s.sp⟩

/-- `Push(v)` (R13). -/
def push (v : Word) (s : State) : Except Trap State :=
  if s.stackRoom 1 then .ok (s.append [v]) else .error (exhausted s)

/-- `Pop()` (R13): the top word and the state without it. -/
def pop (s : State) : Except Trap (Word × State) :=
  match s.stack.getLast? with
  | none => .error (underflow s)
  | some v => .ok (v, { s with stack := s.stack.dropLast })

/-- `Out(kind, v)` (R15): one event appended to the output stream. -/
def State.out (s : State) (kind : EventKind) (v : Word) : State :=
  { s with output := s.output ++ [⟨kind, v⟩] }

/-- `st <- halted` (R172). -/
def State.halt (s : State) : State :=
  { s with st := .halted }

/-- Taking a fault, the machine's one exceptional event (R14, R192): `st` becomes `faulted(cause, (pc, info))` and nothing
else changes. It saves nothing, goes nowhere, and nothing returns from it but reset (R193). -/
def State.raise (s : State) (t : Trap) : State :=
  { s with st := .faulted t.cause s.pc t.info }

/-- The end of an instruction that began in `s`: its last write, or the fault it raises in `s`, so that every write before a
`raise` is undone (R14). -/
def complete (s : State) (r : Except Trap State) : Host.Outcome State Fault Refusal :=
  match r with
  | .ok t => .next t
  | .error e => .next (s.raise e)

/-- Reset (R210, R211): every piece of state at its reset value; the program and the parameters stay. -/
def State.restart (s : State) : State :=
  { State.reset with cfg := s.cfg, prog := s.prog }

/-- The host loads a program and releases reset (R211, R217). -/
def State.launch (cfg : Config) (prog : List Word) : State :=
  { State.reset with cfg := cfg, prog := prog }

end Sys2Proof.Machine
end

