-- ==== Sys2Proof/Machine/Operands.lean ====
section
/-! DEFINITION. The operand forms: a register operand is a whole word checked against 0..17 (spec/30_encoding.md R73),
immediates and targets are whole words used as they stand (R74, R75); and the bringing of an exact integer result back into
a word (spec/40_arithmetic.md R101). -/

namespace Sys2Proof.Machine

/-- `CheckReg(w)` and the register it names (R11, R73): outside 0..17 it raises InvalidRegister, which records the word
(R184). -/
def checkReg (cfg : Config) (w : Word) : Except Trap RegName :=
  if h : 0 ≤ w.toInt ∧ w.toInt ≤ 17 then
    .ok (cfg.regidx[w.toInt.toNat]'(by omega))
  else
    .error ⟨.invalidRegister, w⟩

/-- The integer fits a word: `MIN <= v <= MAX` (R9). -/
def fitsWord (v : Int) : Bool :=
  decide (minWord ≤ v) && decide (v ≤ maxWord)

/-- `Chk(v)` (R101): the word of an exact result; outside the range it raises ArithmeticOverflow, which records the low 64
bits (R189), or wraps under `OVERFLOW_POLICY = wrap`. -/
def chk (cfg : Config) (v : Int) : Except Trap Word :=
  match cfg.overflow with
  | .wrap => .ok (wordOfInt v)
  | .fault => if fitsWord v then .ok (wordOfInt v) else .error ⟨.arithmeticOverflow, wordOfInt v⟩

/-- The quotient and the remainder of a division (R105, R109, R112): the divisor 0 raises DivisionByZero, which records the
dividend (R185); the exact quotient is truncated toward zero and goes through `Chk`; the remainder is `a - q * b`. -/
def divide (cfg : Config) (a b : Int) : Except Trap (Word × Word) :=
  if b = 0 then
    .error ⟨.divisionByZero, wordOfInt a⟩
  else do
    let q ← chk cfg (a.tdiv b)
    pure (q, wordOfInt (a - a.tdiv b * b))

end Sys2Proof.Machine
end

