-- ==== Sys2Proof/Machine/Arithmetic.lean ====
section
/-! DEFINITION. The arithmetic instructions (spec/40_arithmetic.md): ADD, SUB, MULT, DIV, their immediate forms, INC and DEC.
The first operand is the left operand and the destination (R100); operands are read before any register is written. -/

namespace Sys2Proof.Machine

/-- `x[rd] <- Chk(f(x[rd], x[rs]))`, three words (R102 to R104). -/
def arithReg (f : Int → Int → Int) (rd rs : Word) (s : State) : Except Trap State := do
  let d ← checkReg s.cfg rd
  let r ← checkReg s.cfg rs
  let v ← chk s.cfg (f (s.reg d).toInt (s.reg r).toInt)
  pure ((s.setReg d v).advance 3)

/-- `x[rd] <- Chk(f(x[rd], imm))`, three words (R106 to R108). -/
def arithImm (f : Int → Int → Int) (rd imm : Word) (s : State) : Except Trap State := do
  let d ← checkReg s.cfg rd
  let v ← chk s.cfg (f (s.reg d).toInt imm.toInt)
  pure ((s.setReg d v).advance 3)

/-- `x[rd] <- Chk(f(x[rd]))`, two words (R110, R111). -/
def arithUnary (f : Int → Int) (rd : Word) (s : State) : Except Trap State := do
  let d ← checkReg s.cfg rd
  let v ← chk s.cfg (f (s.reg d).toInt)
  pure ((s.setReg d v).advance 2)

/-- The two writes of a division: the quotient to `d`, the remainder to REM; the remainder lands last (R105; decision D8), or
the quotient where `DIV_REM_ORDER` says so. -/
def State.writeDivision (s : State) (d : RegName) (q r : Word) : State :=
  match s.cfg.divRemOrder with
  | .remainderLast => (s.setReg d q).setReg .rem r
  | .quotientLast => (s.setReg .rem r).setReg d q

/-- ADD (R102). -/
def execAdd (rd rs : Word) (s : State) : Host.Outcome State Fault Refusal :=
  complete s (arithReg (fun a b => a + b) rd rs s)

/-- SUB (R103). -/
def execSub (rd rs : Word) (s : State) : Host.Outcome State Fault Refusal :=
  complete s (arithReg (fun a b => a - b) rd rs s)

/-- MULT (R104): the low-order result only, written when it fits (R113). -/
def execMult (rd rs : Word) (s : State) : Host.Outcome State Fault Refusal :=
  complete s (arithReg (fun a b => a * b) rd rs s)

/-- DIV (R105). -/
def execDiv (rd rs : Word) (s : State) : Host.Outcome State Fault Refusal :=
  complete s do
    let d ← checkReg s.cfg rd
    let r ← checkReg s.cfg rs
    let (q, m) ← divide s.cfg (s.reg d).toInt (s.reg r).toInt
    pure ((s.writeDivision d q m).advance 3)

/-- ADDI (R106). -/
def execAddi (rd imm : Word) (s : State) : Host.Outcome State Fault Refusal :=
  complete s (arithImm (fun a b => a + b) rd imm s)

/-- SUBI (R107). -/
def execSubi (rd imm : Word) (s : State) : Host.Outcome State Fault Refusal :=
  complete s (arithImm (fun a b => a - b) rd imm s)

/-- MULTI (R108). -/
def execMulti (rd imm : Word) (s : State) : Host.Outcome State Fault Refusal :=
  complete s (arithImm (fun a b => a * b) rd imm s)

/-- DIVI (R109). -/
def execDivi (rd imm : Word) (s : State) : Host.Outcome State Fault Refusal :=
  complete s do
    let d ← checkReg s.cfg rd
    let (q, m) ← divide s.cfg (s.reg d).toInt imm.toInt
    pure ((s.writeDivision d q m).advance 3)

/-- INC (R110). -/
def execInc (rd : Word) (s : State) : Host.Outcome State Fault Refusal :=
  complete s (arithUnary (fun a => a + 1) rd s)

/-- DEC (R111). -/
def execDec (rd : Word) (s : State) : Host.Outcome State Fault Refusal :=
  complete s (arithUnary (fun a => a - 1) rd s)

end Sys2Proof.Machine
end

