-- ==== Sys2Proof/Machine/CallReturn.lean ====
section
/-! DEFINITION. Call and return (spec/44_call_return.md): CALL and RET, the calling convention built on the operand stack and
the frame-pointer list. -/

namespace Sys2Proof.Machine

/-- The registers CALL saves, in the order it pushes them: R1 to R10, REM, CMPF (R160). -/
def savedRegs : List RegName :=
  [.gpr 0, .gpr 1, .gpr 2, .gpr 3, .gpr 4, .gpr 5, .gpr 6, .gpr 7, .gpr 8, .gpr 9, .rem, .cmpf]

/-- The word CALL pushes as return address: `pc + RA_OFFSET` (R160; decision D10). -/
def State.returnAddress (s : State) : Word :=
  match s.cfg.raOffset with
  | .two => s.pc + 2
  | .one => s.pc + 1

/-- Where RET resumes for a popped word: at the word itself, or one further where `RA_OFFSET = 1` (R162; decision D10). For a
popped `MAX` one further is no word and the spec states no result: the free value `Config.freeResume` (DESIGN CHOICE,
notes/assumptions/21.md). -/
def resumeAt (cfg : Config) (ra : Word) : Word :=
  match cfg.raOffset with
  | .two => ra
  | .one => if ra.toInt = maxWord then Config.freeResume ra else ra + 1

/-- The 13 words of a frame, the return address on top (R160, R161). -/
def State.frameWords (s : State) : List Word :=
  savedRegs.map s.reg ++ [s.returnAddress]

/-- CALL (R160): all 13 pushes or none; then the new frame pointer is `sp` after them, and `pc` the target. -/
def call (addr : Word) (s : State) : Except Trap State :=
  if ¬ s.stackRoom 13 then .error (exhausted s)
  else if ¬ s.frameRoom then .error (exhausted s)
  else
    let t := s.append s.frameWords
    .ok ({ t with frames := t.frames ++ [t.sp] }.jump addr)

/-- `x[r] <- Pop()` for each register of the list, in order. -/
def popRegs : List RegName → State → Except Trap State
  | [], s => .ok s
  | r :: rs, s => do
    let (v, t) ← pop s
    popRegs rs (t.setReg r v)

/-- The state in which RET starts to pop: `F` without its last entry and `sp <- f`, which drops every word above the frame
(R162). -/
def State.unwind (s : State) (f : Int) : State :=
  { s with frames := s.frames.dropLast, stack := s.stack.take (f + 1).toNat }

/-- RET (R162): the return address first, then the twelve saved registers in reverse order. -/
def ret (s : State) : Except Trap State :=
  match s.frames.getLast? with
  | none => .error ⟨.callStackUnderflow, 0⟩
  | some f =>
    if s.sp < f then .error (underflow s)
    else do
      let (ra, t) ← pop (s.unwind f)
      let u ← popRegs savedRegs.reverse t
      pure (u.jump (resumeAt s.cfg ra))

/-- CALL (R160). -/
def execCall (addr : Word) (s : State) : Host.Outcome State Fault Refusal :=
  complete s (call addr s)

/-- RET (R162). -/
def execRet (s : State) : Host.Outcome State Fault Refusal :=
  complete s (ret s)

end Sys2Proof.Machine
end

