-- ==== Sys2Proof/Machine/Flags.lean ====
section
/-! DEFINITION. The comparison flag: what CMP writes (spec/43_control_flow.md R143) and when the four flag-conditional jumps
are taken (R149). There is no other status flag (spec/10_state.md R26). -/

namespace Sys2Proof.Machine

/-- The three-valued result of a signed comparison: -1, 0 or 1 (R143). -/
def compareFlag (a b : Word) : Word :=
  if a.toInt < b.toInt then -1 else if a.toInt = b.toInt then 0 else 1

/-- The exact-match tests (R149): JE `= 0`, JNE `!= 0`, JLT `= -1`, JGT `= 1`. -/
def exactTest (c : FlagCond) (flag : Word) : Bool :=
  match c with
  | .equal => flag == 0
  | .notEqual => flag != 0
  | .less => flag == -1
  | .greater => flag == 1

/-- The flag holds one of the three values that CMP writes (R25). -/
def isCompareValue (flag : Word) : Bool :=
  flag == -1 || flag == 0 || flag == 1

/-- A flag-conditional jump is taken (R149). Where `FLAG_TEST` leaves other flag values open, the answer on them is the free
value `Config.freeFlagTest` (decision D26). -/
def flagTaken (cfg : Config) (c : FlagCond) (flag : Word) : Bool :=
  match cfg.flagTest with
  | .exact => exactTest c flag
  | .unstated => if isCompareValue flag then exactTest c flag else Config.freeFlagTest c flag

end Sys2Proof.Machine
end

