-- ==== Sys2Proof/Machine/ControlFlow.lean ====
section
/-! DEFINITION. The jumps and the compare (spec/43_control_flow.md): JMP, JZ, JNZ, CMP, JE, JNE, JLT, JGT. A taken jump sets
`pc` to its target without checking it (R148). -/

namespace Sys2Proof.Machine

/-- `if taken then pc <- t else pc <- pc + n` (R141 to R147). -/
def State.branch (s : State) (taken : Bool) (t : Word) (n : Nat) : State :=
  if taken then s.jump t else s.advance n

/-- The four flag-conditional jumps (R144 to R147): two words, the flag survives. -/
def flagJump (c : FlagCond) (addr : Word) (s : State) : State :=
  s.branch (flagTaken s.cfg c (s.reg .cmpf)) addr 2

/-- JMP (R140). -/
def execJmp (addr : Word) (s : State) : Host.Outcome State Fault Refusal :=
  complete s (.ok (s.jump addr))

/-- JZ (R141). -/
def execJz (rs addr : Word) (s : State) : Host.Outcome State Fault Refusal :=
  complete s do
    let r ← checkReg s.cfg rs
    pure (s.branch (s.reg r == 0) addr 3)

/-- JNZ (R142). -/
def execJnz (rs addr : Word) (s : State) : Host.Outcome State Fault Refusal :=
  complete s do
    let r ← checkReg s.cfg rs
    pure (s.branch (s.reg r != 0) addr 3)

/-- CMP (R143). -/
def execCmp (r1 r2 : Word) (s : State) : Host.Outcome State Fault Refusal :=
  complete s do
    let a ← checkReg s.cfg r1
    let b ← checkReg s.cfg r2
    pure ((s.setReg .cmpf (compareFlag (s.reg a) (s.reg b))).advance 3)

/-- JE (R144). -/
def execJe (addr : Word) (s : State) : Host.Outcome State Fault Refusal :=
  complete s (.ok (flagJump .equal addr s))

/-- JNE (R145). -/
def execJne (addr : Word) (s : State) : Host.Outcome State Fault Refusal :=
  complete s (.ok (flagJump .notEqual addr s))

/-- JLT (R146). -/
def execJlt (addr : Word) (s : State) : Host.Outcome State Fault Refusal :=
  complete s (.ok (flagJump .less addr s))

/-- JGT (R147). -/
def execJgt (addr : Word) (s : State) : Host.Outcome State Fault Refusal :=
  complete s (.ok (flagJump .greater addr s))

end Sys2Proof.Machine
end

