-- ==== Sys2Proof/Machine/MoveSet.lean ====
section
/-! DEFINITION. The move and set instructions (spec/41_move_set.md): SET and MOV. -/

namespace Sys2Proof.Machine

/-- SET (R120). -/
def execSet (rd imm : Word) (s : State) : Host.Outcome State Fault Refusal :=
  complete s do
    let d ← checkReg s.cfg rd
    pure ((s.setReg d imm).advance 3)

/-- MOV (R121). -/
def execMov (rd rs : Word) (s : State) : Host.Outcome State Fault Refusal :=
  complete s do
    let d ← checkReg s.cfg rd
    let r ← checkReg s.cfg rs
    pure ((s.setReg d (s.reg r)).advance 3)

end Sys2Proof.Machine
end

