-- ==== Sys2Proof/Machine/OutputTermination.lean ====
section
/-! DEFINITION. The output and termination instructions (spec/45_io_termination.md): SHOW, PRINT, STOP and NOP. -/

namespace Sys2Proof.Machine

/-- SHOW (R170): one numeric event. -/
def execShow (rs : Word) (s : State) : Host.Outcome State Fault Refusal :=
  complete s do
    let r ← checkReg s.cfg rs
    pure ((s.out .num (s.reg r)).advance 2)

/-- PRINT (R171): one character event, carrying the whole word. -/
def execPrint (rs : Word) (s : State) : Host.Outcome State Fault Refusal :=
  complete s do
    let r ← checkReg s.cfg rs
    pure ((s.out .chr (s.reg r)).advance 2)

/-- STOP (R172): `pc` stays on the STOP word (decision D18). -/
def execStop (s : State) : Host.Outcome State Fault Refusal :=
  complete s (.ok s.halt)

/-- NOP (R173). -/
def execNop (s : State) : Host.Outcome State Fault Refusal :=
  complete s (.ok (s.advance 1))

end Sys2Proof.Machine
end

