-- ==== Sys2Proof/Machine/Stack.lean ====
section
/-! DEFINITION. The stack instructions (spec/42_stack.md): PUSH, POP, LOAD and STORE. LOAD moves a register to the stack and
STORE the top of the stack to a register. -/

namespace Sys2Proof.Machine

/-- PUSH (R130). -/
def execPush (imm : Word) (s : State) : Host.Outcome State Fault Refusal :=
  complete s do
    let t ← push imm s
    pure (t.advance 2)

/-- POP (R131): the popped value goes to the output stream and to no register. -/
def execPop (s : State) : Host.Outcome State Fault Refusal :=
  complete s do
    let (v, t) ← pop s
    pure ((t.out .num v).advance 1)

/-- LOAD (R132). -/
def execLoad (rs : Word) (s : State) : Host.Outcome State Fault Refusal :=
  complete s do
    let r ← checkReg s.cfg rs
    let t ← push (s.reg r) s
    pure (t.advance 2)

/-- STORE (R133): the register is checked before the pop. -/
def execStore (rd : Word) (s : State) : Host.Outcome State Fault Refusal :=
  complete s do
    let d ← checkReg s.cfg rd
    let (v, t) ← pop s
    pure ((t.setReg d v).advance 2)

end Sys2Proof.Machine
end

