-- ==== Sys2Proof/Machine/Dispatch.lean ====
section
/-! DEFINITION. One arm per instruction: which meaning runs it (spec/30_encoding.md R77). -/

namespace Sys2Proof.Machine

def exec (i : Instr) (s : State) : Host.Outcome State Fault Refusal :=
  match i with
  | .add rd rs => Sys2Proof.Machine.execAdd rd rs s
  | .sub rd rs => Sys2Proof.Machine.execSub rd rs s
  | .mult rd rs => Sys2Proof.Machine.execMult rd rs s
  | .div rd rs => Sys2Proof.Machine.execDiv rd rs s
  | .addi rd imm => Sys2Proof.Machine.execAddi rd imm s
  | .subi rd imm => Sys2Proof.Machine.execSubi rd imm s
  | .multi rd imm => Sys2Proof.Machine.execMulti rd imm s
  | .divi rd imm => Sys2Proof.Machine.execDivi rd imm s
  | .inc rd => Sys2Proof.Machine.execInc rd s
  | .dec rd => Sys2Proof.Machine.execDec rd s
  | .showReg rs => Sys2Proof.Machine.execShow rs s
  | .printReg rs => Sys2Proof.Machine.execPrint rs s
  | .set rd imm => Sys2Proof.Machine.execSet rd imm s
  | .mov rd rs => Sys2Proof.Machine.execMov rd rs s
  | .push imm => Sys2Proof.Machine.execPush imm s
  | .pop => Sys2Proof.Machine.execPop s
  | .load rs => Sys2Proof.Machine.execLoad rs s
  | .store rd => Sys2Proof.Machine.execStore rd s
  | .jmp addr => Sys2Proof.Machine.execJmp addr s
  | .jz rs addr => Sys2Proof.Machine.execJz rs addr s
  | .jnz rs addr => Sys2Proof.Machine.execJnz rs addr s
  | .cmp r1 r2 => Sys2Proof.Machine.execCmp r1 r2 s
  | .je addr => Sys2Proof.Machine.execJe addr s
  | .jne addr => Sys2Proof.Machine.execJne addr s
  | .jlt addr => Sys2Proof.Machine.execJlt addr s
  | .jgt addr => Sys2Proof.Machine.execJgt addr s
  | .call addr => Sys2Proof.Machine.execCall addr s
  | .ret => Sys2Proof.Machine.execRet s
  | .stop => Sys2Proof.Machine.execStop s
  | .nop => Sys2Proof.Machine.execNop s

end Sys2Proof.Machine
end

