-- ==== Sys2Proof/Machine/Fetch.lean ====
section
/-! DEFINITION. Fetching an instruction's words from the program (spec/00_scope.md R12; spec/70_reset_and_hazards.md R213): the
range check of the opcode fetch, the opcode, then the operands in order, each failure a trap of its own (R186 to R188). -/

namespace Sys2Proof.Machine

/-- An opcode can be fetched at `pc`: `0 <= pc < L` (R188). -/
def State.pcInProgram (s : State) : Bool :=
  decide (0 ≤ s.pc.toInt) && decide (s.pc.toInt < s.prog.length)

/-- The words of the program from `pc` on. -/
def State.wordsAtPc (s : State) : List Word :=
  s.prog.drop s.pc.toInt.toNat

/-- The trap of a rejected word sequence at `pc`, with the info word of R181. -/
def rejectTrap (s : State) (r : Reject) : Trap :=
  match r with
  | .noOpcode => ⟨.fetchOutOfRange, s.pc⟩
  | .invalidOpcode w => ⟨.invalidOpcode, w⟩
  | .missingOperand k => ⟨.malformedProgram, s.pc + BitVec.ofNat 64 k⟩

/-- The instruction at `pc`, or the trap that fetching it raises (R213). -/
def fetch (s : State) : Except Trap Instr :=
  if s.pcInProgram then
    match decode s.cfg.opc s.wordsAtPc with
    | .ok i => .ok i
    | .error r => .error (rejectTrap s r)
  else
    .error ⟨.fetchOutOfRange, s.pc⟩

/-- The program with `ws` standing from index `start`, at most its length, over whatever stood there. -/
def placeWords (prog : List Word) (start : Nat) (ws : List Word) : List Word :=
  prog.take start ++ ws ++ prog.drop (start + ws.length)

/-- The index at which `withFetchWord` stores: `pc` where it is an index of the program or its end, else the end. -/
def State.fetchIndex (s : State) : Nat :=
  if 0 ≤ s.pc.toInt ∧ s.pc.toInt ≤ s.prog.length then s.pc.toInt.toNat else s.prog.length

end Sys2Proof.Machine
end

