-- ==== Sys2Proof/Machine/Step.lean ====
section
/-! DEFINITION. The step function (spec/70_reset_and_hazards.md R213): fetch, then the instruction's meaning; a step is defined
only in state `running`. -/

namespace Sys2Proof.Machine

/-- One step (R213). A fault in fetching is the next state with `st` faulted, like any other fault (R192). -/
def step (s : State) : Host.Outcome State Fault Refusal :=
  match s.st with
  | .halted => .fault .noStepHalted
  | .faulted _ _ _ => .fault .noStepFaulted
  | .running =>
    match fetch s with
    | .ok i => exec i s
    | .error t => .next (s.raise t)

/-- The state with one instruction, given as the opcode table numbers its bits, standing where the next step fetches: in the
program at `pc`, the decided opcode numbers in force and the machine running (notes/assumptions/3.md). -/
def State.withFetchWord (s : State) (nbits w : Nat) : State :=
  { s with
    cfg := { s.cfg with opc := opcodeTable }
    prog := placeWords s.prog s.fetchIndex (tableWords nbits w)
    pc := BitVec.ofNat 64 s.fetchIndex
    st := .running }

end Sys2Proof.Machine
end

