-- ==== Sys2Proof/Machine/Ports.lean ====
section
/-! DEFINITION. The machine as its host sees it (spec/70_reset_and_hazards.md R218): the program read port, the status port
with the cause codes (spec/60_exceptions.md R181, R198), and the bytes the host renders from the output events
(spec/45_io_termination.md R170, R171). No instruction depends on anything here. -/

namespace Sys2Proof.Machine

/-- The numeric code of a cause (R181; decision D17). -/
def Cause.code : Cause → BitVec 4
  | .stackUnderflow => 1
  | .callStackUnderflow => 2
  | .invalidRegister => 3
  | .divisionByZero => 4
  | .malformedProgram => 5
  | .invalidOpcode => 6
  | .fetchOutOfRange => 7
  | .arithmeticOverflow => 8
  | .resourceExhaustion => 9

/-- The fault record `(cause code, pc, info)`, the machine's diagnostic message (R198); `none` unless faulted. -/
def State.diagnostic (s : State) : Option (BitVec 4 × Word × Word) :=
  match s.st with
  | .faulted c p i => some (c.code, p, i)
  | .running => none
  | .halted => none

/-- The program read port: `P[i]` where `0 <= i < L`, and nothing elsewhere (R12, R218). -/
def State.programWord (s : State) (i : Word) : Option Word :=
  if 0 ≤ i.toInt then s.prog[i.toInt.toNat]? else none

/-- The kind bit of an event on the output port: 0 is NUM, 1 is CHR (R218). -/
def EventKind.bit : EventKind → BitVec 1
  | .num => 0
  | .chr => 1

/-- `depth()`, the number of stack words, read by no instruction (R36, R197). -/
def State.depth (s : State) : Nat :=
  s.stack.length

/-- The decimal digits of a number, most significant first, as ASCII bytes; `fuel` bounds their number. -/
def decimalDigits : Nat → Nat → List Byte
  | 0, _ => []
  | fuel + 1, n =>
    (if n < 10 then [] else decimalDigits fuel (n / 10)) ++ [BitVec.ofNat 8 (48 + n % 10)]

/-- The bytes of a NUM event: the signed decimal numeral and one line feed (R170; decision D21). A word has at most 19
digits. -/
def renderNum (v : Word) : List Byte :=
  (if v.toInt < 0 then [0x2D] else []) ++ decimalDigits 20 v.toInt.natAbs ++ [0x0A]

/-- The byte of a CHR event: the low 8 bits (R171; decision D22). -/
def renderChr (v : Word) : List Byte :=
  [v.extractLsb' 0 8]

/-- The bytes of one event. -/
def renderEvent (e : Event) : List Byte :=
  match e.kind with
  | .num => renderNum e.value
  | .chr => renderChr e.value

/-- The bytes of the whole output stream, in execution order (R35, R175). -/
def State.rendered (s : State) : List Byte :=
  s.output.flatMap renderEvent

end Sys2Proof.Machine
end

