-- ==== Sys2Proof/Safety.lean ====
section
/-! DEFINITION. What counts as a safe run (spec/60_exceptions.md R192: a faulted run is never a successful one), the
invariant of the machine, and the words the statements are written in. -/

namespace Sys2Proof.Machine

/-- `k` steps of the machine from a state: `next t` exactly when `k` steps were made and the last one led to `t`. -/
def run (k : Nat) (s : State) : Host.Outcome State Fault Refusal :=
  Host.Core.run Sys2Proof.core k s

/-- The run state is `faulted` (R34). -/
def State.Faulted (s : State) : Prop :=
  ∃ cause pc info, s.st = .faulted cause pc info

/-- No state that the first `k` steps reach is faulted. -/
def SafeRun (k : Nat) (s : State) : Prop :=
  ∀ j, j ≤ k → ∀ t, run j s = .next t → ¬ t.Faulted

/-- The good end of a run (R214): it reaches `halted` after `k` steps. -/
def EndsWell (k : Nat) (s : State) : Prop :=
  ∃ t, run k s = .next t ∧ t.st = .halted

/-- A register operand word outside 0..17 (R73). -/
abbrev BadReg (w : Word) : Prop :=
  w.toInt < 0 ∨ 17 < w.toInt

/-- A register operand word and the register it names (R21, R73). -/
abbrev NamesReg (s : State) (w : Word) (r : RegName) : Prop :=
  0 ≤ w.toInt ∧ w.toInt ≤ 17 ∧ s.cfg.regidx[w.toInt.toNat]? = some r

/-- From `s` to `t` nothing changed but `pc` and the registers of the list. -/
structure OnlyRegs (W : List RegName) (s t : State) : Prop where
  cfg : t.cfg = s.cfg
  prog : t.prog = s.prog
  stack : t.stack = s.stack
  frames : t.frames = s.frames
  st : t.st = s.st
  output : t.output = s.output
  regs : ∀ r, r ∉ W → t.reg r = s.reg r

/-- Fault entry as R192 gives it: `st` becomes `faulted(cause, (pc, info))` and nothing else changes. -/
abbrev faultedFrom (s : State) (cause : Cause) (info : Word) : State :=
  { s with st := .faulted cause s.pc info }

/-- Executed in `s`, the instruction raises the fault. -/
abbrev Raises (i : Instr) (s : State) (cause : Cause) (info : Word) : Prop :=
  exec i s = .next (faultedFrom s cause info)

/-- A step is about to fetch the opcode word `op` at `pc`. -/
abbrev AtOpcode (s : State) (op : Word) : Prop :=
  s.st = .running ∧ 0 ≤ s.pc.toInt ∧ s.prog[s.pc.toInt.toNat]? = some op

/-- Under the decided opcode numbers, an instruction of `n` words with opcode `op` that lacks an operand word raises
MalformedProgram, which records the index of the missing word, `L`; nothing else changes (R79, R186). -/
abbrev RaisesWhenTruncated (op : Word) (n : Nat) : Prop :=
  ∀ s : State, s.cfg.opc = opcodeTable → AtOpcode s op → (s.prog.length : Int) < s.pc.toInt + n →
    step s = .next (faultedFrom s .malformedProgram (BitVec.ofNat 64 s.prog.length))

/-- `n` more words fit on the stack. -/
abbrev RoomFor (s : State) (n : Nat) : Prop :=
  ∀ limit, s.cfg.stackLimit = some limit → s.stack.length + n ≤ limit

/-- The instruction does not transfer control and does not stop the machine (R219). -/
def isStraight (i : Instr) : Bool :=
  match i.mnemonic with
  | .jmp | .jz | .jnz | .je | .jne | .jlt | .jgt | .call | .ret | .stop => false
  | .add | .sub | .mult | .div | .addi | .subi | .multi | .divi | .inc | .dec | .showReg | .printReg | .set | .mov => true
  | .push | .pop | .load | .store | .cmp | .nop => true

/-- The invariant of the machine: what holds of every state that a launch can reach. -/
structure State.Inv (s : State) : Prop where
  /-- the program's length is bounded (R6) -/
  programBound : s.prog.length < 2 ^ 60
  /-- `OPC` is injective (R77) -/
  opcodesDiffer : s.cfg.opc.Injective
  /-- two indices never name one register: there is no alias (R20) -/
  registersDiffer : ∀ i j : Fin 18, s.cfg.regidx[i] = s.cfg.regidx[j] → i = j
  /-- `sp < STACK_LIMIT` (R38) -/
  stackBound : RoomFor s 0
  /-- the length of `F` is at most `FRAME_LIMIT` (R38) -/
  frameBound : ∀ limit, s.cfg.frameLimit = some limit → s.frames.length ≤ limit
  /-- every entry of `F` is at least 12 (R32) -/
  framesDeep : ∀ f ∈ s.frames, 12 ≤ f
  /-- a fault record holds the index where `pc` stays (R192) -/
  faultAtPc : ∀ cause pc info, s.st = .faulted cause pc info → pc = s.pc
  /-- a halted machine stays on its STOP word (R172) -/
  haltedAtStop : s.st = .halted → s.programWord s.pc = some (opcodeOf s.cfg.opc .stop)

end Sys2Proof.Machine
end

