-- ==== Sys2Proof/Certificates/Slice0/Obligations.lean ====
section
/-! DEFINITION. The statements for the provers, from the numbered rules of spec/. -/

open Sys2Proof Sys2Proof.Machine

/- ### Encoding (spec/30_encoding.md) -/

/-- R70, R71, R72, R76, R82: decoding the words of an instruction gives the instruction back, whatever words follow, for
every injective opcode map. -/
def Obligations.DecodeOfEncode : Prop :=
  ∀ (opc : OpcodeMap) (i : Instr) (rest : List Word), opc.Injective → decode opc (encode opc i ++ rest) = .ok i

/-- R76, R82 (assembly is one-to-one): a list of words that decodes to an instruction begins with exactly the words that
encode it, for every opcode map. -/
def Obligations.EncodeOfDecode : Prop :=
  ∀ (opc : OpcodeMap) (ws : List Word) (i : Instr), decode opc ws = .ok i → ∃ rest, ws = encode opc i ++ rest

/-- R77, R85 and examples of R102, R131, R146, R160: words written out from the spec decode to the instructions they stand
for. -/
def Obligations.SpecWordsDecode : Prop :=
  decode opcodeTable [0, 0, 1] = .ok (.add 0 1) ∧ decode opcodeTable [4, 4, 2] = .ok (.addi 4 2) ∧
  decode opcodeTable [8, 2] = .ok (.inc 2) ∧ decode opcodeTable [12, 0, 10] = .ok (.set 0 10) ∧
  decode opcodeTable [13, 10, 16] = .ok (.mov 10 16) ∧ decode opcodeTable [14, 7] = .ok (.push 7) ∧
  decode opcodeTable [15] = .ok .pop ∧ decode opcodeTable [20, 1, 9] = .ok (.jnz 1 9) ∧
  decode opcodeTable [24, 9] = .ok (.jlt 9) ∧ decode opcodeTable [26, 20] = .ok (.call 20) ∧
  decode opcodeTable [10, 0] = .ok (.showReg 0) ∧ decode opcodeTable [28] = .ok .stop

/-- R72: the whole word at `pc` is compared with the 30 numbers; a negative word and a word above 29 raises InvalidOpcode,
and no other word does. -/
def Obligations.OpcodeIsTheWholeWord : Prop :=
  ∀ (s : State) (w : Word), s.cfg.opc = opcodeTable → AtOpcode s w →
    (w.toInt < 0 ∨ 29 < w.toInt → step s = .next (faultedFrom s .invalidOpcode w)) ∧
    (0 ≤ w.toInt ∧ w.toInt ≤ 29 → (∃ m, opcodeOf opcodeTable m = w) ∧
      ∀ t, step s = .next t → ∀ pc info, t.st ≠ .faulted .invalidOpcode pc info)

/-- R79: an instruction whose last operand word would stand at an index `>= L` raises MalformedProgram with that first missing
index, `L`, before any register check, and changes nothing else; for every instruction and every injective opcode map. -/
def Obligations.TruncatedInstructionRaises : Prop :=
  ∀ (s : State) (m : Mnemonic), s.cfg.opc.Injective → AtOpcode s (opcodeOf s.cfg.opc m) →
    s.pc.toInt + m.format.words - 1 ≥ s.prog.length →
    step s = .next (faultedFrom s .malformedProgram (BitVec.ofNat 64 s.prog.length))

/- ### The step (spec/70_reset_and_hazards.md) -/

/-- R213: where the words at `pc` decode to an instruction, a step of the running machine is exactly the meaning of that
instruction; the step adds nothing around it. -/
def Obligations.StepRunsDecodedInstruction : Prop :=
  ∀ (s : State) (i : Instr), s.st = .running → 0 ≤ s.pc.toInt →
    decode s.cfg.opc (s.prog.drop s.pc.toInt.toNat) = .ok i → step s = exec i s

/-- R188: an opcode fetch outside `0 .. L-1` raises FetchOutOfRange, which records `pc`. -/
def Obligations.FetchOutsideProgramRaises : Prop :=
  ∀ s : State, s.st = .running → (s.pc.toInt < 0 ∨ (s.prog.length : Int) ≤ s.pc.toInt) →
    step s = .next (faultedFrom s .fetchOutOfRange s.pc)

/-- R213, R34: the step is defined exactly in state `running`, whatever the rest of the state is. -/
def Obligations.StepDefinedExactlyWhenRunning : Prop :=
  ∀ s : State, (∃ t, step s = .next t) ↔ s.st = .running

/-- R213, R14, R192: the meaning of every instruction, with any operand words and from any state, answers some next state,
faulted or not. That a fault is a next state is the model's reading (DEDUCED, notes/assumptions/1.md); that `exec` answers in
halted and faulted states too, which no step asks of it, is the model's choice (DESIGN CHOICE, notes/assumptions/15.md). -/
def Obligations.EveryInstructionExecutes : Prop :=
  ∀ (i : Instr) (s : State), ∃ t, exec i s = .next t

/-- R39, R210, R211: reset puts every register at 0, `pc` at 0, empties the stack (`sp = -1`), the frame list and the output,
makes the machine running from any state, and keeps the program and the parameters. -/
def Obligations.ResetValues : Prop :=
  (∀ s : State, (∀ r, s.restart.reg r = 0) ∧ s.restart.pc = 0 ∧ s.restart.stack = [] ∧ s.restart.sp = -1 ∧
    s.restart.frames = [] ∧ s.restart.output = [] ∧ s.restart.st = .running ∧ s.restart.prog = s.prog ∧
    s.restart.cfg = s.cfg) ∧
  State.reset.restart = State.reset

/-- R219: a straight-line program that ends in STOP executes its instructions in order of increasing index, each once, and
halts, unless one of them faults. -/
def Obligations.StraightLineProgramOrder : Prop :=
  ∀ (cfg : Config) (is : List Instr), cfg.opc.Injective → (∀ i ∈ is, isStraight i = true) →
    ((is ++ [Instr.stop]).flatMap (encode cfg.opc)).length < 2 ^ 60 →
    let start := State.launch cfg ((is ++ [Instr.stop]).flatMap (encode cfg.opc))
    (∀ k t, run k start = .next t → t.st = .running →
      ∃ i, (is ++ [Instr.stop])[k]? = some i ∧ t.pc.toNat = ((is.take k).flatMap (encode cfg.opc)).length ∧
        step t = exec i t) ∧
    (∀ t, run is.length start = .next t → t.st = .running →
      run (is.length + 1) start = .next { t with st := .halted })

/- ### Registers (spec/10_state.md) -/

/-- R11, R20, R21, R22: under the decided indices the word `k` in 0..17 names R(k+1), REM at 16, CMPF at 17; a write to any
register is read back and changes no other register, so none is hardwired and none is an alias of another. -/
def Obligations.RegistersReadBackWrites : Prop :=
  (∀ (s : State) (k : Fin 16), s.cfg.regidx = registerTable → NamesReg s (BitVec.ofNat 64 k) (.gpr k)) ∧
  (∀ s : State, s.cfg.regidx = registerTable → NamesReg s 16 .rem ∧ NamesReg s 17 .cmpf) ∧
  (∀ (s : State) (r q : RegName) (v : Word), (s.setReg r v).reg q = if q = r then v else s.reg q)

/-- R184: every register operand of every instruction is checked, the first before the second, before anything changes; the
fault records the offending word. A well-formed instruction never raises it. -/
def Obligations.InvalidRegisterUniform : Prop :=
  (∀ (i : Instr) (s : State) (w : Word), i.regOperands.find? (fun w => decide (BadReg w)) = some w →
    Raises i s .invalidRegister w) ∧
  (∀ (i : Instr) (s t : State), i.wellFormed = true → s.st = .running → exec i s = .next t →
    ∀ pc info, t.st ≠ .faulted .invalidRegister pc info)

/-- R23: the register operand words an instruction may write through. -/
def destinationWords : Instr → List Word
  | .add rd _ | .sub rd _ | .mult rd _ | .div rd _ | .addi rd _ | .subi rd _ | .multi rd _ | .divi rd _ => [rd]
  | .inc rd | .dec rd | .set rd _ | .mov rd _ | .store rd => [rd]
  | .showReg _ | .printReg _ | .push _ | .pop | .load _ | .jmp _ | .jz _ _ | .jnz _ _ | .cmp _ _ => []
  | .je _ | .jne _ | .jlt _ | .jgt _ | .call _ | .ret | .stop | .nop => []

/-- R23, R41: the registers an instruction writes without naming them. -/
def sideEffectRegs : Instr → List RegName
  | .div _ _ | .divi _ _ => [.rem]
  | .cmp _ _ => [.cmpf]
  | .ret => [.gpr 0, .gpr 1, .gpr 2, .gpr 3, .gpr 4, .gpr 5, .gpr 6, .gpr 7, .gpr 8, .gpr 9, .rem, .cmpf]
  | .add _ _ | .sub _ _ | .mult _ _ | .addi _ _ | .subi _ _ | .multi _ _ | .inc _ | .dec _ | .set _ _ | .mov _ _ => []
  | .store _ | .showReg _ | .printReg _ | .push _ | .pop | .load _ | .jmp _ | .jz _ _ | .jnz _ _ => []
  | .je _ | .jne _ | .jlt _ | .jgt _ | .call _ | .stop | .nop => []

/-- R23, R24, R25, R41: no instruction changes a register other than the one its destination word names and those it writes as
a side effect; so REM changes only by DIV, DIVI, RET or an explicit write, CMPF only by CMP, RET or an explicit write. -/
def Obligations.OnlyNamedRegistersChange : Prop :=
  ∀ (i : Instr) (s t : State) (r : RegName), exec i s = .next t → t.reg r ≠ s.reg r →
    r ∈ sideEffectRegs i ∨ ∃ w ∈ destinationWords i, NamesReg s w r

/-- R52, R32, R41: only PUSH, LOAD, CALL, POP, STORE and RET change the stack, and only CALL and RET the frame list. -/
def Obligations.StackAndFramesHaveFewWriters : Prop :=
  ∀ (i : Instr) (s t : State), exec i s = .next t →
    (t.stack ≠ s.stack → i.mnemonic ∈ [Mnemonic.push, .load, .call, .pop, .store, .ret]) ∧
    (t.frames ≠ s.frames → i.mnemonic ∈ [Mnemonic.call, .ret])

/-- R6, R51, R61: no run changes the program or the parameters, so every fetch of an index gives the same word for the whole
run. -/
def Obligations.ProgramAndParametersConstant : Prop :=
  ∀ (k : Nat) (s t : State), run k s = .next t → t.prog = s.prog ∧ t.cfg = s.cfg ∧
    ∀ a, t.programWord a = s.programWord a

/-- R28: how a completed instruction leaves `pc`: past its words, at its target, unchanged by STOP, and by RET at the word its
frame pointer points at, or one further under `RA_OFFSET = 1` (decision D10) where that is a word (notes/assumptions/21.md). -/
def Obligations.PcAfterEachInstruction : Prop :=
  ∀ (i : Instr) (s t : State), exec i s = .next t → s.st = .running → ¬ t.Faulted →
    (isStraight i = true → t.pc = s.pc + BitVec.ofNat 64 i.mnemonic.format.words) ∧
    (∀ a, i = .jmp a ∨ i = .call a → t.pc = a) ∧
    (∀ a, i = .je a ∨ i = .jne a ∨ i = .jlt a ∨ i = .jgt a → t.pc = a ∨ t.pc = s.pc + 2) ∧
    (∀ r a, i = .jz r a ∨ i = .jnz r a → t.pc = a ∨ t.pc = s.pc + 3) ∧
    (i = .ret → ∃ older f ra, s.frames = older ++ [f] ∧ 0 ≤ f ∧ s.stack[f.toNat]? = some ra ∧
      (s.cfg.raOffset = .two → t.pc = ra) ∧ (s.cfg.raOffset = .one → ra.toInt ≠ maxWord → t.pc = ra + 1)) ∧
    (i = .stop → t.pc = s.pc)

/- ### Arithmetic (spec/40_arithmetic.md) -/

/-- The rule of a register-register arithmetic instruction with opcode `op` computing `f`: its words, its missing operands,
its register checks in order, and, under `OVERFLOW_POLICY = fault`, its result or its overflow. -/
def ArithRegRule (mk : Word → Word → Instr) (op : Word) (f : Int → Int → Int) : Prop :=
  (∀ rd rs, encode opcodeTable (mk rd rs) = [op, rd, rs]) ∧ RaisesWhenTruncated op 3 ∧
  (∀ s rd rs, BadReg rd → Raises (mk rd rs) s .invalidRegister rd) ∧
  (∀ s rd rs, ¬ BadReg rd → BadReg rs → Raises (mk rd rs) s .invalidRegister rs) ∧
  (∀ s rd rs d r, s.cfg.overflow = .fault → NamesReg s rd d → NamesReg s rs r →
    (minWord ≤ f (s.reg d).toInt (s.reg r).toInt ∧ f (s.reg d).toInt (s.reg r).toInt ≤ maxWord →
      ∃ t, exec (mk rd rs) s = .next t ∧ (t.reg d).toInt = f (s.reg d).toInt (s.reg r).toInt ∧ t.pc = s.pc + 3 ∧
        OnlyRegs [d] s t) ∧
    (f (s.reg d).toInt (s.reg r).toInt < minWord ∨ maxWord < f (s.reg d).toInt (s.reg r).toInt →
      Raises (mk rd rs) s .arithmeticOverflow (BitVec.ofInt 64 (f (s.reg d).toInt (s.reg r).toInt))))

/-- The same for a register-immediate instruction. -/
def ArithImmRule (mk : Word → Word → Instr) (op : Word) (f : Int → Int → Int) : Prop :=
  (∀ rd imm, encode opcodeTable (mk rd imm) = [op, rd, imm]) ∧ RaisesWhenTruncated op 3 ∧
  (∀ s rd imm, BadReg rd → Raises (mk rd imm) s .invalidRegister rd) ∧
  (∀ s rd imm d, s.cfg.overflow = .fault → NamesReg s rd d →
    (minWord ≤ f (s.reg d).toInt imm.toInt ∧ f (s.reg d).toInt imm.toInt ≤ maxWord →
      ∃ t, exec (mk rd imm) s = .next t ∧ (t.reg d).toInt = f (s.reg d).toInt imm.toInt ∧ t.pc = s.pc + 3 ∧
        OnlyRegs [d] s t) ∧
    (f (s.reg d).toInt imm.toInt < minWord ∨ maxWord < f (s.reg d).toInt imm.toInt →
      Raises (mk rd imm) s .arithmeticOverflow (BitVec.ofInt 64 (f (s.reg d).toInt imm.toInt))))

/-- The same for a unary instruction that adds `k`. -/
def ArithUnaryRule (mk : Word → Instr) (op : Word) (k : Int) : Prop :=
  (∀ rd, encode opcodeTable (mk rd) = [op, rd]) ∧ RaisesWhenTruncated op 2 ∧
  (∀ s rd, BadReg rd → Raises (mk rd) s .invalidRegister rd) ∧
  (∀ s rd d, s.cfg.overflow = .fault → NamesReg s rd d →
    (minWord ≤ (s.reg d).toInt + k ∧ (s.reg d).toInt + k ≤ maxWord →
      ∃ t, exec (mk rd) s = .next t ∧ (t.reg d).toInt = (s.reg d).toInt + k ∧ t.pc = s.pc + 2 ∧ OnlyRegs [d] s t) ∧
    ((s.reg d).toInt + k < minWord ∨ maxWord < (s.reg d).toInt + k →
      Raises (mk rd) s .arithmeticOverflow (BitVec.ofInt 64 ((s.reg d).toInt + k))))

/-- R102, R103, R104 (and R100, R113): ADD, SUB and MULT. -/
def Obligations.AddSubMultFollowTheirRules : Prop :=
  ArithRegRule .add 0 (fun a b => a + b) ∧ ArithRegRule .sub 1 (fun a b => a - b) ∧
  ArithRegRule .mult 2 (fun a b => a * b)

/-- R106, R107, R108: ADDI, SUBI and MULTI. -/
def Obligations.AddiSubiMultiFollowTheirRules : Prop :=
  ArithImmRule .addi 4 (fun a b => a + b) ∧ ArithImmRule .subi 5 (fun a b => a - b) ∧
  ArithImmRule .multi 6 (fun a b => a * b)

/-- R110, R111: INC and DEC. -/
def Obligations.IncDecFollowTheirRules : Prop :=
  ArithUnaryRule .inc 8 1 ∧ ArithUnaryRule .dec 9 (-1)

/-- R112: `q` and `r` are the quotient truncated toward zero and the remainder of `a / b`: `a = q * b + r`, `|r| < |b|`, and
`r` is zero or has the sign of `a`. -/
def TruncatingDivision (a b q r : Int) : Prop :=
  a = q * b + r ∧ r.natAbs < b.natAbs ∧ (r = 0 ∨ (0 < r ↔ 0 < a))

/-- What a division of `a` by `b` into register `d` (instruction `i`) does: R105, R109, R112, under
`OVERFLOW_POLICY = fault`; which of the two writes lands last on REM follows `DIV_REM_ORDER` (decision D8). -/
def DivisionResult (i : Instr) (s : State) (d : RegName) (b : Int) : Prop :=
  (b = 0 → Raises i s .divisionByZero (s.reg d)) ∧
  ((s.reg d).toInt = minWord ∧ b = -1 → Raises i s .arithmeticOverflow (BitVec.ofInt 64 minWord)) ∧
  (b ≠ 0 → ¬ ((s.reg d).toInt = minWord ∧ b = -1) →
    ∃ t q r, exec i s = .next t ∧ TruncatingDivision (s.reg d).toInt b q r ∧ t.pc = s.pc + 3 ∧ OnlyRegs [d, .rem] s t ∧
      (d ≠ .rem → (t.reg d).toInt = q ∧ (t.reg .rem).toInt = r) ∧
      (d = .rem → s.cfg.divRemOrder = .remainderLast → (t.reg .rem).toInt = r) ∧
      (d = .rem → s.cfg.divRemOrder = .quotientLast → (t.reg .rem).toInt = q))

/-- R105, R109, R112, R185: DIV and DIVI: their words, their missing operands, their register checks in order, their results
and faults. -/
def Obligations.DivisionFollowsItsRules : Prop :=
  ((∀ rd rs, encode opcodeTable (.div rd rs) = [3, rd, rs]) ∧ RaisesWhenTruncated 3 3 ∧
    (∀ s rd rs, BadReg rd → Raises (.div rd rs) s .invalidRegister rd) ∧
    (∀ s rd rs, ¬ BadReg rd → BadReg rs → Raises (.div rd rs) s .invalidRegister rs) ∧
    (∀ s rd rs d r, s.cfg.overflow = .fault → NamesReg s rd d → NamesReg s rs r →
      DivisionResult (.div rd rs) s d (s.reg r).toInt)) ∧
  ((∀ rd imm, encode opcodeTable (.divi rd imm) = [7, rd, imm]) ∧ RaisesWhenTruncated 7 3 ∧
    (∀ s rd imm, BadReg rd → Raises (.divi rd imm) s .invalidRegister rd) ∧
    (∀ s rd imm d, s.cfg.overflow = .fault → NamesReg s rd d → DivisionResult (.divi rd imm) s d imm.toInt))

/-- R101, R112: `MIN / -1` in register `d` under the policy `wrap`: quotient `MIN`, remainder 0; on REM the write that
`DIV_REM_ORDER` puts last stays. -/
def WrappedMinByMinusOne (s t : State) (d : RegName) : Prop :=
  t.pc = s.pc + 3 ∧ OnlyRegs [d, .rem] s t ∧
  (d ≠ .rem → (t.reg d).toInt = minWord ∧ t.reg .rem = 0) ∧
  (d = .rem → s.cfg.divRemOrder = .remainderLast → t.reg .rem = 0) ∧
  (d = .rem → s.cfg.divRemOrder = .quotientLast → (t.reg .rem).toInt = minWord)

/-- R101, the policy `wrap`: the arithmetic instructions write the low 64 bits of the exact result and go on; `MIN / -1` gives
quotient `MIN` and remainder 0. -/
def Obligations.WrapPolicyResults : Prop :=
  ∀ (s : State) (rd rs imm : Word) (d r : RegName), s.cfg.overflow = .wrap → NamesReg s rd d → NamesReg s rs r →
    (∃ t, exec (.add rd rs) s = .next t ∧ t.reg d = s.reg d + s.reg r ∧ t.pc = s.pc + 3 ∧ OnlyRegs [d] s t) ∧
    (∃ t, exec (.sub rd rs) s = .next t ∧ t.reg d = s.reg d - s.reg r ∧ t.pc = s.pc + 3 ∧ OnlyRegs [d] s t) ∧
    (∃ t, exec (.mult rd rs) s = .next t ∧ t.reg d = s.reg d * s.reg r ∧ t.pc = s.pc + 3 ∧ OnlyRegs [d] s t) ∧
    (∃ t, exec (.addi rd imm) s = .next t ∧ t.reg d = s.reg d + imm ∧ t.pc = s.pc + 3 ∧ OnlyRegs [d] s t) ∧
    (∃ t, exec (.subi rd imm) s = .next t ∧ t.reg d = s.reg d - imm ∧ t.pc = s.pc + 3 ∧ OnlyRegs [d] s t) ∧
    (∃ t, exec (.multi rd imm) s = .next t ∧ t.reg d = s.reg d * imm ∧ t.pc = s.pc + 3 ∧ OnlyRegs [d] s t) ∧
    (∃ t, exec (.inc rd) s = .next t ∧ t.reg d = s.reg d + 1 ∧ t.pc = s.pc + 2 ∧ OnlyRegs [d] s t) ∧
    (∃ t, exec (.dec rd) s = .next t ∧ t.reg d = s.reg d - 1 ∧ t.pc = s.pc + 2 ∧ OnlyRegs [d] s t) ∧
    ((s.reg d).toInt = minWord → (s.reg r).toInt = -1 →
      ∃ t, exec (.div rd rs) s = .next t ∧ WrappedMinByMinusOne s t d) ∧
    ((s.reg d).toInt = minWord → imm.toInt = -1 →
      ∃ t, exec (.divi rd imm) s = .next t ∧ WrappedMinByMinusOne s t d)

/-- R101: what a run does under `fault` without an overflow fault, it does under `wrap`. -/
def Obligations.RunWithoutOverflowSameUnderWrap : Prop :=
  ∀ (k : Nat) (s t : State), s.cfg.overflow = .fault → run k s = .next t →
    (∀ pc info, t.st ≠ .faulted .arithmeticOverflow pc info) →
    run k { s with cfg := { s.cfg with overflow := .wrap } } = .next { t with cfg := { t.cfg with overflow := .wrap } }

/- ### Move and set (spec/41_move_set.md) -/

/-- R120: SET. -/
def Obligations.SetFollowsItsRule : Prop :=
  (∀ rd imm, encode opcodeTable (.set rd imm) = [12, rd, imm]) ∧ RaisesWhenTruncated 12 3 ∧
  (∀ s rd imm, BadReg rd → Raises (.set rd imm) s .invalidRegister rd) ∧
  (∀ s rd imm d, NamesReg s rd d →
    ∃ t, exec (.set rd imm) s = .next t ∧ t.reg d = imm ∧ t.pc = s.pc + 3 ∧ OnlyRegs [d] s t)

/-- R121: MOV. -/
def Obligations.MovFollowsItsRule : Prop :=
  (∀ rd rs, encode opcodeTable (.mov rd rs) = [13, rd, rs]) ∧ RaisesWhenTruncated 13 3 ∧
  (∀ s rd rs, BadReg rd → Raises (.mov rd rs) s .invalidRegister rd) ∧
  (∀ s rd rs, ¬ BadReg rd → BadReg rs → Raises (.mov rd rs) s .invalidRegister rs) ∧
  (∀ s rd rs d r, NamesReg s rd d → NamesReg s rs r →
    ∃ t, exec (.mov rd rs) s = .next t ∧ t.reg d = s.reg r ∧ t.reg r = s.reg r ∧ t.pc = s.pc + 3 ∧ OnlyRegs [d] s t)

/- ### The stack (spec/42_stack.md) -/

/-- R130: PUSH. -/
def Obligations.PushFollowsItsRule : Prop :=
  (∀ imm, encode opcodeTable (.push imm) = [14, imm]) ∧ RaisesWhenTruncated 14 2 ∧
  (∀ s imm limit, s.cfg.stackLimit = some limit → limit ≤ s.stack.length →
    Raises (.push imm) s .resourceExhaustion (BitVec.ofInt 64 s.sp)) ∧
  (∀ s imm, RoomFor s 1 → exec (.push imm) s = .next { s with stack := s.stack ++ [imm], pc := s.pc + 2 })

/-- R131: POP. -/
def Obligations.PopFollowsItsRule : Prop :=
  encode opcodeTable .pop = [15] ∧
  (∀ s, s.stack = [] → Raises .pop s .stackUnderflow (-1)) ∧
  (∀ s below v, s.stack = below ++ [v] →
    exec .pop s = .next { s with stack := below, output := s.output ++ [⟨.num, v⟩], pc := s.pc + 1 })

/-- R132: LOAD. -/
def Obligations.LoadFollowsItsRule : Prop :=
  (∀ rs, encode opcodeTable (.load rs) = [16, rs]) ∧ RaisesWhenTruncated 16 2 ∧
  (∀ s rs, BadReg rs → Raises (.load rs) s .invalidRegister rs) ∧
  (∀ s rs r limit, NamesReg s rs r → s.cfg.stackLimit = some limit → limit ≤ s.stack.length →
    Raises (.load rs) s .resourceExhaustion (BitVec.ofInt 64 s.sp)) ∧
  (∀ s rs r, NamesReg s rs r → RoomFor s 1 →
    exec (.load rs) s = .next { s with stack := s.stack ++ [s.reg r], pc := s.pc + 2 })

/-- R133: STORE; a bad register leaves the stack as it was. -/
def Obligations.StoreFollowsItsRule : Prop :=
  (∀ rd, encode opcodeTable (.store rd) = [17, rd]) ∧ RaisesWhenTruncated 17 2 ∧
  (∀ s rd, BadReg rd → Raises (.store rd) s .invalidRegister rd) ∧
  (∀ s rd d, NamesReg s rd d → s.stack = [] → Raises (.store rd) s .stackUnderflow (-1)) ∧
  (∀ s rd d below v, NamesReg s rd d → s.stack = below ++ [v] →
    ∃ t, exec (.store rd) s = .next t ∧ t.reg d = v ∧ t.stack = below ∧ t.pc = s.pc + 2 ∧
      OnlyRegs [d] { s with stack := below } t)

/-- The instructions executed one after another. -/
def execAll : List Instr → State → Host.Outcome State Fault Refusal
  | [], s => .next s
  | i :: is, s =>
    match exec i s with
    | .next t => execAll is t
    | .fault e => .fault e
    | .refused e => .refused e

/-- R134, the LIFO law: `n` pushes on any stack with room for them, then `n` pops, report the values in reverse order and
leave the stack, the registers and the frame list as they were. -/
def Obligations.StackIsLifo : Prop :=
  ∀ (s : State) (vs : List Word), RoomFor s vs.length →
    execAll (vs.map Instr.push ++ List.replicate vs.length Instr.pop) s =
      .next { s with
        output := s.output ++ vs.reverse.map (fun v => ⟨.num, v⟩)
        pc := s.pc + BitVec.ofNat 64 (3 * vs.length) }

/- ### Control flow (spec/43_control_flow.md) -/

/-- R140: JMP. -/
def Obligations.JmpFollowsItsRule : Prop :=
  (∀ addr, encode opcodeTable (.jmp addr) = [18, addr]) ∧ RaisesWhenTruncated 18 2 ∧
  (∀ s addr, exec (.jmp addr) s = .next { s with pc := addr })

/-- R141, R142: JZ and JNZ. -/
def Obligations.JzJnzFollowTheirRules : Prop :=
  ((∀ rs addr, encode opcodeTable (.jz rs addr) = [19, rs, addr]) ∧ RaisesWhenTruncated 19 3 ∧
    (∀ s rs addr, BadReg rs → Raises (.jz rs addr) s .invalidRegister rs) ∧
    (∀ s rs addr r, NamesReg s rs r → (s.reg r).toInt = 0 → exec (.jz rs addr) s = .next { s with pc := addr }) ∧
    (∀ s rs addr r, NamesReg s rs r → (s.reg r).toInt ≠ 0 →
      exec (.jz rs addr) s = .next { s with pc := s.pc + 3 })) ∧
  ((∀ rs addr, encode opcodeTable (.jnz rs addr) = [20, rs, addr]) ∧ RaisesWhenTruncated 20 3 ∧
    (∀ s rs addr, BadReg rs → Raises (.jnz rs addr) s .invalidRegister rs) ∧
    (∀ s rs addr r, NamesReg s rs r → (s.reg r).toInt ≠ 0 → exec (.jnz rs addr) s = .next { s with pc := addr }) ∧
    (∀ s rs addr r, NamesReg s rs r → (s.reg r).toInt = 0 →
      exec (.jnz rs addr) s = .next { s with pc := s.pc + 3 }))

/-- R143: CMP, an exact signed comparison. -/
def Obligations.CmpFollowsItsRule : Prop :=
  (∀ r1 r2, encode opcodeTable (.cmp r1 r2) = [21, r1, r2]) ∧ RaisesWhenTruncated 21 3 ∧
  (∀ s r1 r2, BadReg r1 → Raises (.cmp r1 r2) s .invalidRegister r1) ∧
  (∀ s r1 r2, ¬ BadReg r1 → BadReg r2 → Raises (.cmp r1 r2) s .invalidRegister r2) ∧
  (∀ s r1 r2 a b, NamesReg s r1 a → NamesReg s r2 b →
    ∃ t, exec (.cmp r1 r2) s = .next t ∧ t.pc = s.pc + 3 ∧ OnlyRegs [.cmpf] s t ∧
      ((s.reg a).toInt < (s.reg b).toInt → (t.reg .cmpf).toInt = -1) ∧
      ((s.reg a).toInt = (s.reg b).toInt → (t.reg .cmpf).toInt = 0) ∧
      ((s.reg b).toInt < (s.reg a).toInt → (t.reg .cmpf).toInt = 1))

/-- The rule of a flag-conditional jump with opcode `op`, taken on the flag values that `test` holds of, under the
exact-match tests. -/
def FlagJumpRule (mk : Word → Instr) (op : Word) (test : Int → Prop) : Prop :=
  (∀ addr, encode opcodeTable (mk addr) = [op, addr]) ∧ RaisesWhenTruncated op 2 ∧
  (∀ s addr, s.cfg.flagTest = .exact → test (s.reg .cmpf).toInt → exec (mk addr) s = .next { s with pc := addr }) ∧
  (∀ s addr, s.cfg.flagTest = .exact → ¬ test (s.reg .cmpf).toInt →
    exec (mk addr) s = .next { s with pc := s.pc + 2 })

/-- R144, R145, R146, R147: JE, JNE, JLT and JGT. -/
def Obligations.FlagJumpsFollowTheirRules : Prop :=
  FlagJumpRule .je 22 (fun f => f = 0) ∧ FlagJumpRule .jne 23 (fun f => f ≠ 0) ∧
  FlagJumpRule .jlt 24 (fun f => f = -1) ∧ FlagJumpRule .jgt 25 (fun f => f = 1)

/-- R149, decision D26: where `FLAG_TEST` is left open the jumps act on -1, 0 and 1 as the exact tests do; on any other flag
the jump goes to its target or past its operand, and nothing else changes. -/
def Obligations.FlagJumpsWithOpenTest : Prop :=
  ∀ (s : State) (addr : Word), s.cfg.flagTest = .unstated →
    ((s.reg .cmpf).toInt = -1 → exec (.jlt addr) s = .next { s with pc := addr } ∧
      exec (.jne addr) s = .next { s with pc := addr } ∧ exec (.je addr) s = .next { s with pc := s.pc + 2 } ∧
      exec (.jgt addr) s = .next { s with pc := s.pc + 2 }) ∧
    ((s.reg .cmpf).toInt = 0 → exec (.je addr) s = .next { s with pc := addr } ∧
      exec (.jne addr) s = .next { s with pc := s.pc + 2 } ∧ exec (.jlt addr) s = .next { s with pc := s.pc + 2 } ∧
      exec (.jgt addr) s = .next { s with pc := s.pc + 2 }) ∧
    ((s.reg .cmpf).toInt = 1 → exec (.jgt addr) s = .next { s with pc := addr } ∧
      exec (.jne addr) s = .next { s with pc := addr } ∧ exec (.je addr) s = .next { s with pc := s.pc + 2 } ∧
      exec (.jlt addr) s = .next { s with pc := s.pc + 2 }) ∧
    (∀ i ∈ [Instr.je addr, .jne addr, .jlt addr, .jgt addr],
      exec i s = .next { s with pc := addr } ∨ exec i s = .next { s with pc := s.pc + 2 })

/-- R149: after a CMP exactly one of JLT, JE and JGT is taken, the one that the signed comparison of the two registers says,
and JNE is taken exactly when JE is not; for every setting of the parameters. -/
def Obligations.CompareTakesExactlyOneBranch : Prop :=
  ∀ (s t : State) (r1 r2 addr : Word) (a b : RegName), NamesReg s r1 a → NamesReg s r2 b → s.st = .running →
    exec (.cmp r1 r2) s = .next t → addr ≠ t.pc + 2 →
    (exec (.jlt addr) t = .next { t with pc := addr } ↔ (s.reg a).toInt < (s.reg b).toInt) ∧
    (exec (.je addr) t = .next { t with pc := addr } ↔ (s.reg a).toInt = (s.reg b).toInt) ∧
    (exec (.jgt addr) t = .next { t with pc := addr } ↔ (s.reg b).toInt < (s.reg a).toInt) ∧
    (exec (.jne addr) t = .next { t with pc := addr } ↔ ¬ exec (.je addr) t = .next { t with pc := addr })

/- ### Call and return (spec/44_call_return.md) -/

/-- R160, R161: CALL. With room for 13 words and one entry it leaves the frame of R161 on the stack, records `sp` after the
pushes, changes no register and goes to its target; without, it raises ResourceExhaustion and pushes nothing. The pushed
address follows `RA_OFFSET` (decision D10). -/
def Obligations.CallFollowsItsRule : Prop :=
  (∀ addr, encode opcodeTable (.call addr) = [26, addr]) ∧ RaisesWhenTruncated 26 2 ∧
  (∀ s addr limit, s.cfg.stackLimit = some limit → limit < s.stack.length + 13 →
    Raises (.call addr) s .resourceExhaustion (BitVec.ofInt 64 s.sp)) ∧
  (∀ s addr limit, s.cfg.frameLimit = some limit → limit < s.frames.length + 1 →
    Raises (.call addr) s .resourceExhaustion (BitVec.ofInt 64 s.sp)) ∧
  (∀ s addr, RoomFor s 13 → (∀ limit, s.cfg.frameLimit = some limit → s.frames.length + 1 ≤ limit) →
    ∃ t, exec (.call addr) s = .next t ∧ t.pc = addr ∧ t.regs = s.regs ∧ t.cfg = s.cfg ∧ t.prog = s.prog ∧
      t.output = s.output ∧ t.st = s.st ∧ t.frames = s.frames ++ [t.sp] ∧ t.sp = s.sp + 13 ∧
      t.stack.take s.stack.length = s.stack ∧
      (∀ k : Fin 16, k.val < 10 → t.stack[s.stack.length + k]? = some (s.reg (.gpr k))) ∧
      t.stack[s.stack.length + 10]? = some (s.reg .rem) ∧ t.stack[s.stack.length + 11]? = some (s.reg .cmpf) ∧
      (s.cfg.raOffset = .two → t.stack[s.stack.length + 12]? = some (s.pc + 2)) ∧
      (s.cfg.raOffset = .one → t.stack[s.stack.length + 12]? = some (s.pc + 1)))

/-- R162: RET. An empty frame list raises CallStackUnderflow whatever the stack holds; a frame pointer above `sp` raises
StackUnderflow; else the words that stand at the frame's positions go back to `pc`, CMPF, REM and R10..R1, every word above
the frame is dropped, and R11..R16 stay. That an entry of `F` is at least 12 is part of `State.Inv`. Where `pc` goes under
`RA_OFFSET = 1` for a popped `MAX` is free (notes/assumptions/21.md); everything else holds there too. -/
def Obligations.RetFollowsItsRule : Prop :=
  encode opcodeTable .ret = [27] ∧
  (∀ s, s.frames = [] → Raises .ret s .callStackUnderflow 0) ∧
  (∀ s older f, s.frames = older ++ [f] → s.sp < f → Raises .ret s .stackUnderflow (BitVec.ofInt 64 s.sp)) ∧
  (∀ (s : State) older (f : Nat), s.frames = older ++ [(f : Int)] → 12 ≤ f → (f : Int) ≤ s.sp →
    ∃ t ra, exec .ret s = .next t ∧ s.stack[f]? = some ra ∧
      (s.cfg.raOffset = .two → t.pc = ra) ∧ (s.cfg.raOffset = .one → ra.toInt ≠ maxWord → t.pc = ra + 1) ∧
      s.stack[f - 1]? = some (t.reg .cmpf) ∧ s.stack[f - 2]? = some (t.reg .rem) ∧
      (∀ k : Fin 16, k.val < 10 → s.stack[f - 12 + k]? = some (t.reg (.gpr k))) ∧
      (∀ k : Fin 16, 10 ≤ k.val → t.reg (.gpr k) = s.reg (.gpr k)) ∧
      t.stack = s.stack.take (f - 12) ∧ t.frames = older ∧ t.cfg = s.cfg ∧ t.prog = s.prog ∧ t.output = s.output ∧
      t.st = s.st)

/-- R164, R165: a RET restores what its CALL saved. If no state of a run from the CALL has `sp` below the new frame pointer and
at its end the frame list is as the CALL left it, RET gives R1..R10, REM, CMPF, the stack and the frame list their values from
just before the CALL, keeps R11..R16 and the output, and goes to the instruction after the CALL; for both values of
`RA_OFFSET` (decision D10). Under `RA_OFFSET = 1` the last clause leaves out a CALL at `MAX - 1`, which saves `MAX`
(notes/assumptions/21.md): no program has a word there (R6). -/
def Obligations.RetRestoresWhatCallSaved : Prop :=
  ∀ (s s1 t : State) (addr : Word) (k : Nat), exec (.call addr) s = .next s1 → s1.st = .running →
    run k s1 = .next t → (∀ j ≤ k, ∀ u, run j s1 = .next u → s1.sp ≤ u.sp) → t.frames = s1.frames →
    ∃ r, exec .ret t = .next r ∧ (∀ j : Fin 16, j.val < 10 → r.reg (.gpr j) = s.reg (.gpr j)) ∧
      r.reg .rem = s.reg .rem ∧ r.reg .cmpf = s.reg .cmpf ∧ r.stack = s.stack ∧ r.frames = s.frames ∧
      ((s.cfg.raOffset = .one → s.pc.toInt + 1 ≠ maxWord) → r.pc = s.pc + 2) ∧
      (∀ j : Fin 16, 10 ≤ j.val → r.reg (.gpr j) = t.reg (.gpr j)) ∧ r.output = t.output ∧
      r.st = t.st ∧ r.prog = s.prog ∧ r.cfg = s.cfg

/- ### Output and termination (spec/45_io_termination.md) -/

/-- R170, R171: SHOW appends one numeric event and PRINT one character event, each with the whole word, and they change nothing
else but `pc`. -/
def Obligations.ShowPrintAppendOneEvent : Prop :=
  (∀ rs, encode opcodeTable (.showReg rs) = [10, rs] ∧ encode opcodeTable (.printReg rs) = [11, rs]) ∧
  RaisesWhenTruncated 10 2 ∧ RaisesWhenTruncated 11 2 ∧
  (∀ s rs, BadReg rs → Raises (.showReg rs) s .invalidRegister rs ∧ Raises (.printReg rs) s .invalidRegister rs) ∧
  (∀ s rs r, NamesReg s rs r →
    exec (.showReg rs) s = .next { s with output := s.output ++ [⟨.num, s.reg r⟩], pc := s.pc + 2 } ∧
    exec (.printReg rs) s = .next { s with output := s.output ++ [⟨.chr, s.reg r⟩], pc := s.pc + 2 })

/-- R172: STOP halts and changes nothing else; that `pc` stays on the STOP word is decision D18. -/
def Obligations.StopHalts : Prop :=
  encode opcodeTable .stop = [28] ∧ ∀ s, exec .stop s = .next { s with st := .halted }

/-- R173: NOP. -/
def Obligations.NopFollowsItsRule : Prop :=
  encode opcodeTable .nop = [29] ∧ ∀ s, exec .nop s = .next { s with pc := s.pc + 1 }

/-- R35, R175: a step only appends to the output stream, at most one event, only by SHOW, POP or PRINT; a faulting step appends
nothing. -/
def Obligations.OutputGrowsInOrder : Prop :=
  ∀ s t : State, step s = .next t →
    (t.Faulted → t.output = s.output) ∧
    (t.output = s.output ∨ ∃ e i, t.output = s.output ++ [e] ∧ decode s.cfg.opc (s.prog.drop s.pc.toInt.toNat) = .ok i ∧
      i.mnemonic ∈ [Mnemonic.showReg, .pop, .printReg])

/-- R35: the output stream is write-only: no step reads it. -/
def Obligations.OutputIsNeverRead : Prop :=
  ∀ (s t : State) (o : List Event), step s = .next t →
    ∃ new, t.output = s.output ++ new ∧ step { s with output := o } = .next { t with output := o ++ new }

/-- R170, decision D21: the bytes of a numeric line are an optional `-`, the decimal digits of the magnitude without a leading
zero, and one line feed. -/
def Obligations.NumericLineIsDecimal : Prop :=
  ∀ v : Word, ∃ digits : List Byte,
    renderNum v = (if v.toInt < 0 then [0x2D] else []) ++ digits ++ [0x0A] ∧
    (∀ b ∈ digits, 48 ≤ b.toNat ∧ b.toNat ≤ 57) ∧
    digits.foldl (fun n b => 10 * n + (b.toNat - 48)) 0 = v.toInt.natAbs ∧
    (digits.head? = some 48 → digits.length = 1) ∧ digits ≠ []

/- ### Faults (spec/60_exceptions.md) -/

/-- R192: faults are precise: a step that ends faulted changed nothing but `st`, and records `pc`. -/
def Obligations.FaultsArePrecise : Prop :=
  ∀ (s t : State) (cause : Cause) (pc info : Word), step s = .next t → t.st = .faulted cause pc info →
    t = { s with st := .faulted cause s.pc info }

/-- R181, the column "raised by": the causes each instruction can raise when it executes. -/
def possibleCauses : Instr → List Cause
  | .add _ _ | .sub _ _ | .mult _ _ | .addi _ _ | .subi _ _ | .multi _ _ | .inc _ | .dec _ =>
    [.invalidRegister, .arithmeticOverflow]
  | .div _ _ | .divi _ _ => [.invalidRegister, .divisionByZero, .arithmeticOverflow]
  | .showReg _ | .printReg _ | .set _ _ | .mov _ _ | .jz _ _ | .jnz _ _ | .cmp _ _ => [.invalidRegister]
  | .push _ | .call _ => [.resourceExhaustion]
  | .pop => [.stackUnderflow]
  | .load _ => [.invalidRegister, .resourceExhaustion]
  | .store _ => [.invalidRegister, .stackUnderflow]
  | .ret => [.callStackUnderflow, .stackUnderflow]
  | .jmp _ | .je _ | .jne _ | .jlt _ | .jgt _ | .stop | .nop => []

/-- R181, R190: an instruction raises no cause but those R181 gives it; with both limits unbounded ResourceExhaustion is never
raised, and under `wrap` ArithmeticOverflow is never raised (R189). -/
def Obligations.OnlyListedCausesAreRaised : Prop :=
  ∀ (i : Instr) (s t : State) (cause : Cause) (pc info : Word), s.st = .running → exec i s = .next t →
    t.st = .faulted cause pc info → cause ∈ possibleCauses i ∧
    (s.cfg.stackLimit = none → s.cfg.frameLimit = none → cause ≠ .resourceExhaustion) ∧
    (s.cfg.overflow = .wrap → cause ≠ .arithmeticOverflow)

/-- R172, R214: only STOP ends a run well: a step that halts fetched the STOP word and changed nothing but `st`. -/
def Obligations.OnlyStopHalts : Prop :=
  ∀ s t : State, step s = .next t → t.st = .halted →
    AtOpcode s (opcodeOf s.cfg.opc .stop) ∧ t = { s with st := .halted }

/-- R181, R198, R218: the codes 1 to 9 of the nine causes, and the fault record of the status port. -/
def Obligations.CauseCodesAndRecord : Prop :=
  Cause.stackUnderflow.code = 1 ∧ Cause.callStackUnderflow.code = 2 ∧ Cause.invalidRegister.code = 3 ∧
  Cause.divisionByZero.code = 4 ∧ Cause.malformedProgram.code = 5 ∧ Cause.invalidOpcode.code = 6 ∧
  Cause.fetchOutOfRange.code = 7 ∧ Cause.arithmeticOverflow.code = 8 ∧ Cause.resourceExhaustion.code = 9 ∧
  (∀ (s : State) (cause : Cause) (info : Word),
    (faultedFrom s cause info).diagnostic = some (cause.code, s.pc, info)) ∧
  (∀ s : State, s.diagnostic ≠ none ↔ s.Faulted)

/- ### The host's boundary (spec/20_memory.md) -/

/-- R54, R63, decision D25: byte `8*i + j` of a program's image is bits `8*j+7` down to `8*j` of word `i`; the program read from
its own image is the program, and an image whose byte length is no multiple of 8 is rejected. -/
def Obligations.ImageRoundTrip : Prop :=
  (∀ (ws : List Word) (i : Nat) (w : Word) (j : Fin 8), ws[i]? = some w →
    (imageOfWords ws)[8 * i + j.val]? = some (w.extractLsb' (8 * j.val) 8)) ∧
  (∀ ws : List Word, wordsOfImage (imageOfWords ws) = some ws) ∧
  (∀ bs : List Byte, (wordsOfImage bs).isSome ↔ bs.length % 8 = 0) ∧
  (∀ bs ws, wordsOfImage bs = some ws → imageOfWords ws = bs)

/- ### The invariant -/

/-- A launch of a program of fewer than 2^60 words with injective tables meets the invariant; State.reset is one. -/
def Obligations.LaunchMeetsInvariant : Prop :=
  State.reset.Inv ∧
  ∀ (cfg : Config) (prog : List Word), prog.length < 2 ^ 60 → cfg.opc.Injective →
    (∀ i j : Fin 18, cfg.regidx[i] = cfg.regidx[j] → i = j) → (State.launch cfg prog).Inv

/-- R6, R20, R32, R38, R172, R192: every step keeps the invariant. -/
def Obligations.StepKeepsInvariant : Prop :=
  ∀ s t : State, s.Inv → step s = .next t → t.Inv
end

