-- ==== Sys2Proof/Laws/Decode.lean ====
section
/-! SUPPORT. The laws of the decoder and the encoder: finding an opcode's mnemonic, the injectivity of the decided tables, and
what reading an instruction's operands gives. -/

namespace Sys2Proof

theorem mem_allMnemonics (m : Mnemonic) : m ∈ allMnemonics := by
  cases m <;> decide

theorem Mnemonic.index_injective (m n : Mnemonic) (h : m.index = n.index) : m = n := by
  cases m <;> cases n <;> first | rfl | (exact absurd h (by decide))

theorem opcodeOf_opcodeTable (m : Mnemonic) : opcodeOf opcodeTable m = BitVec.ofNat 64 m.index := by
  cases m <;> decide

/-- The decided opcode numbers are injective (R77). -/
theorem opcodeTable_injective : opcodeTable.Injective := by
  intro m n h
  rw [opcodeOf_opcodeTable, opcodeOf_opcodeTable] at h
  have h' := congrArg BitVec.toNat h
  simp only [BitVec.toNat_ofNat] at h'
  exact Mnemonic.index_injective m n (Fin.ext (by omega))

/-- The decided register indices are injective (R21). -/
theorem registerTable_injective : ∀ i j : Fin 18, registerTable[i] = registerTable[j] → i = j := by
  decide

/-- A word found in the opcode map is the opcode of the mnemonic found. -/
theorem opcodeOf_of_mnemonicOf {opc : OpcodeMap} {w : Word} {m : Mnemonic} (h : mnemonicOf opc w = some m) :
    opcodeOf opc m = w := by
  simpa using List.find?_some h

theorem mnemonicOf_eq_none {opc : OpcodeMap} {w : Word} :
    mnemonicOf opc w = none ↔ ∀ m, opcodeOf opc m ≠ w := by
  simp [mnemonicOf, mem_allMnemonics]

/-- Under an injective map the opcode of a mnemonic is found as that mnemonic. -/
theorem mnemonicOf_opcodeOf {opc : OpcodeMap} (hopc : opc.Injective) (m : Mnemonic) :
    mnemonicOf opc (opcodeOf opc m) = some m := by
  cases h : mnemonicOf opc (opcodeOf opc m) with
  | none => exact absurd rfl (mnemonicOf_eq_none.1 h m)
  | some n => rw [hopc n m (opcodeOf_of_mnemonicOf h)]

/-- Decoding from an opcode word whose mnemonic is known. -/
theorem decode_cons {opc : OpcodeMap} {w : Word} {m : Mnemonic} (h : mnemonicOf opc w = some m) (ws : List Word) :
    decode opc (w :: ws) = readOperands m ws := by
  simp [decode, h]

/-- Reading the operands of an instruction from the words that carry them gives the instruction back. -/
theorem readOperands_operands (i : Instr) (rest : List Word) :
    readOperands i.mnemonic (i.operands ++ rest) = .ok i := by
  cases i <;> rfl

/-- The operands read are the words read: an instruction read under a mnemonic has that mnemonic, and the words begin with its
operands. -/
theorem readOperands_ok {m : Mnemonic} {ws : List Word} {i : Instr} (h : readOperands m ws = .ok i) :
    i.mnemonic = m ∧ ∃ rest, ws = i.operands ++ rest := by
  cases m <;> rcases ws with _ | ⟨a, _ | ⟨b, ws⟩⟩ <;>
    simp [readOperands, readZero, readOne, readTwo] at h <;> subst h <;> simp [Instr.mnemonic, Instr.operands]

/-- What a missing operand word is reported as: its number, one more than the operand words that are there. -/
theorem readOperands_missing {m : Mnemonic} {ws : List Word} (h : ws.length + 1 < m.format.words) :
    readOperands m ws = .error (.missingOperand (ws.length + 1)) := by
  cases m <;> rcases ws with _ | ⟨a, _ | ⟨b, ws⟩⟩ <;>
    simp [Mnemonic.format, Format.words, readOperands, readOne, readTwo] at h ⊢ <;> omega

/-- With all operand words there, an instruction is read. -/
theorem readOperands_present {m : Mnemonic} {ws : List Word} (h : m.format.words ≤ ws.length + 1) :
    ∃ i, readOperands m ws = .ok i := by
  cases m <;> rcases ws with _ | ⟨a, _ | ⟨b, ws⟩⟩ <;>
    simp [Mnemonic.format, Format.words, readOperands, readZero, readOne, readTwo] at h ⊢

/-- An instruction has as many operand words as its format says, after its opcode (R70, R71). -/
theorem operands_length (i : Instr) : i.operands.length + 1 = i.words := by
  cases i <;> rfl

/-- Reading a word from the bytes of the image it was written to (R54). -/
theorem wordOfBytes_bytesOfWord (w : Word) :
    wordOfBytes (w.extractLsb' 0 8) (w.extractLsb' 8 8) (w.extractLsb' 16 8) (w.extractLsb' 24 8)
      (w.extractLsb' 32 8) (w.extractLsb' 40 8) (w.extractLsb' 48 8) (w.extractLsb' 56 8) = w := by
  apply BitVec.eq_of_getLsbD_eq
  intro i hi
  simp only [wordOfBytes, BitVec.getLsbD_append, BitVec.getLsbD_extractLsb']
  interval_cases i <;> simp

end Sys2Proof
end

