-- ==== Sys2Proof/Laws/State.lean ====
section
/-! SUPPORT. The small lemmas of the state's updates: one per field per update, each true by `rfl`, and the laws of the
register accessors over them. -/

namespace Sys2Proof.Machine

variable (s : State)

@[simp] theorem State.setReg_cfg (r : RegName) (v : Word) : (s.setReg r v).cfg = s.cfg := rfl
@[simp] theorem State.setReg_prog (r : RegName) (v : Word) : (s.setReg r v).prog = s.prog := rfl
@[simp] theorem State.setReg_regs (r : RegName) (v : Word) : (s.setReg r v).regs = s.regs.put r v := rfl
@[simp] theorem State.setReg_pc (r : RegName) (v : Word) : (s.setReg r v).pc = s.pc := rfl
@[simp] theorem State.setReg_stack (r : RegName) (v : Word) : (s.setReg r v).stack = s.stack := rfl
@[simp] theorem State.setReg_frames (r : RegName) (v : Word) : (s.setReg r v).frames = s.frames := rfl
@[simp] theorem State.setReg_st (r : RegName) (v : Word) : (s.setReg r v).st = s.st := rfl
@[simp] theorem State.setReg_output (r : RegName) (v : Word) : (s.setReg r v).output = s.output := rfl

@[simp] theorem State.jump_cfg (a : Word) : (s.jump a).cfg = s.cfg := rfl
@[simp] theorem State.jump_prog (a : Word) : (s.jump a).prog = s.prog := rfl
@[simp] theorem State.jump_regs (a : Word) : (s.jump a).regs = s.regs := rfl
@[simp] theorem State.jump_pc (a : Word) : (s.jump a).pc = a := rfl
@[simp] theorem State.jump_stack (a : Word) : (s.jump a).stack = s.stack := rfl
@[simp] theorem State.jump_frames (a : Word) : (s.jump a).frames = s.frames := rfl
@[simp] theorem State.jump_st (a : Word) : (s.jump a).st = s.st := rfl
@[simp] theorem State.jump_output (a : Word) : (s.jump a).output = s.output := rfl
@[simp] theorem State.jump_reg (a : Word) (q : RegName) : (s.jump a).reg q = s.reg q := rfl

@[simp] theorem State.advance_cfg (n : Nat) : (s.advance n).cfg = s.cfg := rfl
@[simp] theorem State.advance_prog (n : Nat) : (s.advance n).prog = s.prog := rfl
@[simp] theorem State.advance_regs (n : Nat) : (s.advance n).regs = s.regs := rfl
@[simp] theorem State.advance_pc (n : Nat) : (s.advance n).pc = s.pc + BitVec.ofNat 64 n := rfl
@[simp] theorem State.advance_stack (n : Nat) : (s.advance n).stack = s.stack := rfl
@[simp] theorem State.advance_frames (n : Nat) : (s.advance n).frames = s.frames := rfl
@[simp] theorem State.advance_st (n : Nat) : (s.advance n).st = s.st := rfl
@[simp] theorem State.advance_output (n : Nat) : (s.advance n).output = s.output := rfl
@[simp] theorem State.advance_reg (n : Nat) (q : RegName) : (s.advance n).reg q = s.reg q := rfl

@[simp] theorem State.append_cfg (ws : List Word) : (s.append ws).cfg = s.cfg := rfl
@[simp] theorem State.append_prog (ws : List Word) : (s.append ws).prog = s.prog := rfl
@[simp] theorem State.append_regs (ws : List Word) : (s.append ws).regs = s.regs := rfl
@[simp] theorem State.append_pc (ws : List Word) : (s.append ws).pc = s.pc := rfl
@[simp] theorem State.append_stack (ws : List Word) : (s.append ws).stack = s.stack ++ ws := rfl
@[simp] theorem State.append_frames (ws : List Word) : (s.append ws).frames = s.frames := rfl
@[simp] theorem State.append_st (ws : List Word) : (s.append ws).st = s.st := rfl
@[simp] theorem State.append_output (ws : List Word) : (s.append ws).output = s.output := rfl
@[simp] theorem State.append_reg (ws : List Word) (q : RegName) : (s.append ws).reg q = s.reg q := rfl

@[simp] theorem State.out_cfg (k : EventKind) (v : Word) : (s.out k v).cfg = s.cfg := rfl
@[simp] theorem State.out_prog (k : EventKind) (v : Word) : (s.out k v).prog = s.prog := rfl
@[simp] theorem State.out_regs (k : EventKind) (v : Word) : (s.out k v).regs = s.regs := rfl
@[simp] theorem State.out_pc (k : EventKind) (v : Word) : (s.out k v).pc = s.pc := rfl
@[simp] theorem State.out_stack (k : EventKind) (v : Word) : (s.out k v).stack = s.stack := rfl
@[simp] theorem State.out_frames (k : EventKind) (v : Word) : (s.out k v).frames = s.frames := rfl
@[simp] theorem State.out_st (k : EventKind) (v : Word) : (s.out k v).st = s.st := rfl
@[simp] theorem State.out_output (k : EventKind) (v : Word) : (s.out k v).output = s.output ++ [⟨k, v⟩] := rfl
@[simp] theorem State.out_reg (k : EventKind) (v : Word) (q : RegName) : (s.out k v).reg q = s.reg q := rfl

@[simp] theorem State.halt_cfg : (s.halt).cfg = s.cfg := rfl
@[simp] theorem State.halt_prog : (s.halt).prog = s.prog := rfl
@[simp] theorem State.halt_regs : (s.halt).regs = s.regs := rfl
@[simp] theorem State.halt_pc : (s.halt).pc = s.pc := rfl
@[simp] theorem State.halt_stack : (s.halt).stack = s.stack := rfl
@[simp] theorem State.halt_frames : (s.halt).frames = s.frames := rfl
@[simp] theorem State.halt_st : (s.halt).st = .halted := rfl
@[simp] theorem State.halt_output : (s.halt).output = s.output := rfl
@[simp] theorem State.halt_reg (q : RegName) : (s.halt).reg q = s.reg q := rfl

@[simp] theorem State.raise_cfg (e : Trap) : (s.raise e).cfg = s.cfg := rfl
@[simp] theorem State.raise_prog (e : Trap) : (s.raise e).prog = s.prog := rfl
@[simp] theorem State.raise_regs (e : Trap) : (s.raise e).regs = s.regs := rfl
@[simp] theorem State.raise_pc (e : Trap) : (s.raise e).pc = s.pc := rfl
@[simp] theorem State.raise_stack (e : Trap) : (s.raise e).stack = s.stack := rfl
@[simp] theorem State.raise_frames (e : Trap) : (s.raise e).frames = s.frames := rfl
@[simp] theorem State.raise_st (e : Trap) : (s.raise e).st = .faulted e.cause s.pc e.info := rfl
@[simp] theorem State.raise_output (e : Trap) : (s.raise e).output = s.output := rfl
@[simp] theorem State.raise_reg (e : Trap) (q : RegName) : (s.raise e).reg q = s.reg q := rfl

@[simp] theorem State.unwind_cfg (f : Int) : (s.unwind f).cfg = s.cfg := rfl
@[simp] theorem State.unwind_prog (f : Int) : (s.unwind f).prog = s.prog := rfl
@[simp] theorem State.unwind_regs (f : Int) : (s.unwind f).regs = s.regs := rfl
@[simp] theorem State.unwind_pc (f : Int) : (s.unwind f).pc = s.pc := rfl
@[simp] theorem State.unwind_stack (f : Int) : (s.unwind f).stack = s.stack.take (f + 1).toNat := rfl
@[simp] theorem State.unwind_frames (f : Int) : (s.unwind f).frames = s.frames.dropLast := rfl
@[simp] theorem State.unwind_st (f : Int) : (s.unwind f).st = s.st := rfl
@[simp] theorem State.unwind_output (f : Int) : (s.unwind f).output = s.output := rfl

@[simp] theorem RegFile.get_put_same (x : RegFile) (r : RegName) (v : Word) : (x.put r v).get r = v := by
  cases r <;> simp [RegFile.get, RegFile.put]

theorem RegFile.get_put_other (x : RegFile) {r q : RegName} (v : Word) (h : q ≠ r) : (x.put r v).get q = x.get q := by
  cases r with
  | gpr k =>
    cases q with
    | gpr j =>
      have : k.val ≠ j.val := fun e => h (by rw [Fin.ext e])
      simp [RegFile.get, RegFile.put, Vector.getElem_set_ne, this]
    | rem => rfl
    | cmpf => rfl
  | rem => cases q <;> first | rfl | exact absurd rfl h
  | cmpf => cases q <;> first | rfl | exact absurd rfl h

@[simp] theorem State.setReg_reg_same (r : RegName) (v : Word) : (s.setReg r v).reg r = v :=
  s.regs.get_put_same r v

theorem State.setReg_reg_other {r q : RegName} (v : Word) (h : q ≠ r) : (s.setReg r v).reg q = s.reg q :=
  s.regs.get_put_other v h

end Sys2Proof.Machine
end

