-- ==== Sys2Proof/Laws/Ops.lean ====
section
/-! SUPPORT. One lemma per shared operation, saying all that the operation can do; the meanings' laws cite these. -/

namespace Sys2Proof.Machine

/-- An instruction always answers a next state: its result, or the state with the fault taken. -/
theorem complete_eq_next {s t : State} {r : Except Trap State} :
    complete s r = .next t ↔ r = .ok t ∨ ∃ e, r = .error e ∧ t = s.raise e := by
  cases r <;> simp [complete, eq_comm]

@[simp] theorem complete_ok (s t : State) : complete s (.ok t) = .next t := rfl

@[simp] theorem complete_error (s : State) (e : Trap) : complete s (.error e) = .next (s.raise e) := rfl

@[simp] theorem except_bind_ok {α β : Type} (a : α) (f : α → Except Trap β) : (Except.ok a >>= f) = f a := rfl

@[simp] theorem except_bind_error {α β : Type} (e : Trap) (f : α → Except Trap β) :
    ((Except.error e : Except Trap α) >>= f) = .error e := rfl

@[simp] theorem except_pure {α : Type} (a : α) : (pure a : Except Trap α) = .ok a := rfl

/-- A chain of two computations ends well only through its first one's value. -/
theorem except_bind_eq_ok {α β : Type} {x : Except Trap α} {f : α → Except Trap β} {b : β} :
    (x >>= f) = .ok b ↔ ∃ a, x = .ok a ∧ f a = .ok b := by
  cases x <;> simp

/-- A chain of two computations fails in its first one or in its second. -/
theorem except_bind_eq_error {α β : Type} {x : Except Trap α} {f : α → Except Trap β} {e : Trap} :
    (x >>= f) = .error e ↔ x = .error e ∨ ∃ a, x = .ok a ∧ f a = .error e := by
  cases x <;> simp

/-- `CheckReg` gives the register the configuration names at an index 0..17 (R73). -/
theorem checkReg_eq_ok {cfg : Config} {w : Word} {r : RegName} :
    checkReg cfg w = .ok r ↔ 0 ≤ w.toInt ∧ w.toInt ≤ 17 ∧ cfg.regidx[w.toInt.toNat]? = some r := by
  unfold checkReg
  split
  · rename_i h
    have hlt : w.toInt.toNat < 18 := by omega
    simp [h.1, h.2, hlt]
  · rename_i h
    constructor
    · intro h'
      cases h'
    · rintro ⟨h1, h2, -⟩
      exact absurd ⟨h1, h2⟩ h

/-- `CheckReg` raises InvalidRegister exactly outside 0..17, and records the word (R184). -/
theorem checkReg_eq_error {cfg : Config} {w : Word} {e : Trap} :
    checkReg cfg w = .error e ↔ (w.toInt < 0 ∨ 17 < w.toInt) ∧ e = ⟨.invalidRegister, w⟩ := by
  unfold checkReg
  split
  · rename_i h
    simp only [reduceCtorEq, false_iff]
    rintro ⟨h', -⟩
    omega
  · rename_i h
    have : w.toInt < 0 ∨ 17 < w.toInt := by omega
    simp [this, eq_comm]

/-- Every word names a register or is refused: `CheckReg` has no third outcome. -/
theorem checkReg_total (cfg : Config) (w : Word) :
    (∃ r, checkReg cfg w = .ok r) ∨ checkReg cfg w = .error ⟨.invalidRegister, w⟩ := by
  unfold checkReg
  split
  · exact .inl ⟨_, rfl⟩
  · exact .inr rfl

/-- The integer of the word made from an integer that fits is that integer. -/
theorem toInt_wordOfInt {v : Int} (h1 : minWord ≤ v) (h2 : v ≤ maxWord) : (wordOfInt v).toInt = v := by
  rw [BitVec.toInt_ofInt, Int.bmod_def]
  simp only [Nat.reducePow, minWord, maxWord] at *
  split <;> omega

@[simp] theorem wordOfInt_toInt (w : Word) : wordOfInt w.toInt = w :=
  BitVec.ofInt_toInt

/-- The bounds of a word's integer (R9). -/
theorem word_bounds (w : Word) : minWord ≤ w.toInt ∧ w.toInt ≤ maxWord := by
  have h1 := BitVec.le_toInt w
  have h2 := BitVec.toInt_lt (x := w)
  simp only [Nat.reduceSub, Int.reducePow] at h1 h2
  exact ⟨h1, by simp only [maxWord]; omega⟩

theorem fitsWord_iff {v : Int} : fitsWord v = true ↔ minWord ≤ v ∧ v ≤ maxWord := by
  simp [fitsWord]

/-- `Chk` gives the word of the result, where it fits or where the policy wraps (R101). -/
theorem chk_eq_ok {cfg : Config} {v : Int} {w : Word} :
    chk cfg v = .ok w ↔ w = wordOfInt v ∧ (cfg.overflow = .wrap ∨ (minWord ≤ v ∧ v ≤ maxWord)) := by
  unfold chk
  split
  · rename_i h
    simp [h, eq_comm]
  · rename_i h
    split
    · rename_i hf
      simp [h, fitsWord_iff.1 hf, eq_comm]
    · rename_i hf
      rw [fitsWord_iff] at hf
      simp [h, hf]

/-- `Chk` raises ArithmeticOverflow exactly outside the range under the policy `fault`, and records the low 64 bits (R189). -/
theorem chk_eq_error {cfg : Config} {v : Int} {e : Trap} :
    chk cfg v = .error e ↔
      e = ⟨.arithmeticOverflow, wordOfInt v⟩ ∧ cfg.overflow = .fault ∧ ¬ (minWord ≤ v ∧ v ≤ maxWord) := by
  unfold chk
  split
  · rename_i h
    simp [h]
  · rename_i h
    split
    · rename_i hf
      simp [fitsWord_iff.1 hf]
    · rename_i hf
      rw [fitsWord_iff] at hf
      simp [h, hf, eq_comm]

/-- A division that ends well: the divisor is not 0 and the truncated quotient passes `Chk` (R105). -/
theorem divide_eq_ok {cfg : Config} {a b : Int} {q r : Word} :
    divide cfg a b = .ok (q, r) ↔
      b ≠ 0 ∧ chk cfg (a.tdiv b) = .ok q ∧ r = wordOfInt (a - a.tdiv b * b) := by
  unfold divide
  split
  · rename_i h
    simp [h]
  · rename_i h
    cases hq : chk cfg (a.tdiv b) <;> simp [h, eq_comm]

/-- A division that fails: DivisionByZero with the dividend, before the overflow of its quotient (R185, R191). -/
theorem divide_eq_error {cfg : Config} {a b : Int} {e : Trap} :
    divide cfg a b = .error e ↔
      (b = 0 ∧ e = ⟨.divisionByZero, wordOfInt a⟩) ∨ (b ≠ 0 ∧ chk cfg (a.tdiv b) = .error e) := by
  unfold divide
  split
  · rename_i h
    simp [h, eq_comm]
  · rename_i h
    cases hq : chk cfg (a.tdiv b) <;> simp [h]

/-- Room on the stack, as the limit says it (R13). -/
theorem stackRoom_iff {s : State} {n : Nat} :
    s.stackRoom n = true ↔ ∀ limit, s.cfg.stackLimit = some limit → s.stack.length + n ≤ limit := by
  unfold State.stackRoom
  cases s.cfg.stackLimit <;> simp

/-- Room in the frame list, as the limit says it (R160). -/
theorem frameRoom_iff {s : State} :
    s.frameRoom = true ↔ ∀ limit, s.cfg.frameLimit = some limit → s.frames.length + 1 ≤ limit := by
  unfold State.frameRoom
  cases s.cfg.frameLimit <;> simp

/-- `Push` appends one word where there is room (R13). -/
theorem push_eq_ok {v : Word} {s t : State} : push v s = .ok t ↔ s.stackRoom 1 = true ∧ t = s.append [v] := by
  unfold push
  cases s.stackRoom 1 <;> simp [eq_comm]

/-- `Push` fails only for want of room (R190). -/
theorem push_eq_error {v : Word} {s : State} {e : Trap} :
    push v s = .error e ↔ s.stackRoom 1 = false ∧ e = exhausted s := by
  unfold push
  cases s.stackRoom 1 <;> simp [eq_comm]

/-- `Pop` returns and removes the top word (R13). -/
theorem pop_eq_ok {s t : State} {v : Word} :
    pop s = .ok (v, t) ↔ s.stack = t.stack ++ [v] ∧ t = { s with stack := t.stack } := by
  unfold pop
  rcases List.eq_nil_or_concat s.stack with h | ⟨below, w, h⟩
  · simp [h]
  · simp only [h, List.concat_eq_append, List.getLast?_append, List.getLast?_singleton, Option.some_or,
      List.dropLast_concat, Except.ok.injEq, Prod.mk.injEq]
    constructor
    · rintro ⟨rfl, rfl⟩
      simp
    · rintro ⟨h', ht⟩
      have := List.append_inj' h' rfl
      refine ⟨by simpa using this.2, ?_⟩
      rw [ht, ← this.1]

/-- `Pop` on a stack whose top word is known. -/
theorem pop_of_append {s : State} {below : List Word} {v : Word} (h : s.stack = below ++ [v]) :
    pop s = .ok (v, { s with stack := below }) :=
  pop_eq_ok.2 ⟨h, rfl⟩

/-- `Pop` fails exactly on the empty stack, and then records -1 (R182). -/
theorem pop_eq_error {s : State} {e : Trap} :
    pop s = .error e ↔ s.stack = [] ∧ e = ⟨.stackUnderflow, -1⟩ := by
  unfold pop
  rcases List.eq_nil_or_concat s.stack with h | ⟨below, w, h⟩
  · have hw : wordOfInt (-1) = -1 := by decide
    simp only [h, List.getLast?_nil, underflow, State.sp, List.length_nil, Int.ofNat_zero, Int.zero_sub, hw,
      Except.error.injEq, true_and]
    exact eq_comm
  · simp [h]

/-- The three outcomes of the comparison (R143). -/
theorem compareFlag_cases (a b : Word) :
    (a.toInt < b.toInt ∧ compareFlag a b = -1) ∨ (a.toInt = b.toInt ∧ compareFlag a b = 0) ∨
      (b.toInt < a.toInt ∧ compareFlag a b = 1) := by
  unfold compareFlag
  split
  · rename_i h
    exact .inl ⟨h, rfl⟩
  · split
    · rename_i h
      exact .inr (.inl ⟨h, rfl⟩)
    · exact .inr (.inr ⟨by omega, rfl⟩)

/-- On the three values CMP writes, the tests are exact whatever `FLAG_TEST` is (R149). -/
theorem flagTaken_of_compareValue {cfg : Config} {c : FlagCond} {flag : Word} (h : isCompareValue flag = true) :
    flagTaken cfg c flag = exactTest c flag := by
  unfold flagTaken
  split
  · rfl
  · simp [h]

end Sys2Proof.Machine
end

