-- ==== Sys2Proof/Laws/Division.lean ====
section
/-! SUPPORT. Integer facts about truncating division (spec/40_arithmetic.md R112): the remainder's size and sign, and the range
of the quotient and of the remainder of two words. -/

namespace Sys2Proof.Machine

/-- The remainder that `divide` computes is the truncating remainder. -/
theorem sub_tdiv_mul (a b : Int) : a - a.tdiv b * b = a.tmod b := by
  rw [Int.tmod_def, Int.mul_comm]

/-- The remainder is smaller than the divisor. -/
theorem natAbs_tmod_lt (a : Int) {b : Int} (hb : b ≠ 0) : (a.tmod b).natAbs < b.natAbs := by
  rw [Int.natAbs_tmod]
  exact Nat.mod_lt _ (by omega)

/-- The remainder is zero or has the sign of the dividend. -/
theorem tmod_sign (a b : Int) : a.tmod b = 0 ∨ (0 < a.tmod b ↔ 0 < a) := by
  by_cases h0 : a.tmod b = 0
  · exact .inl h0
  · right
    rcases lt_trichotomy a 0 with ha | ha | ha
    · have hneg : (-a).tmod b ≥ 0 := Int.tmod_nonneg b (by omega)
      rw [Int.neg_tmod] at hneg
      constructor <;> intro <;> omega
    · subst ha
      simp at h0
    · have hpos : a.tmod b ≥ 0 := Int.tmod_nonneg b (by omega)
      constructor <;> intro <;> omega

/-- The quotient of a word by a non-zero integer is a word, but for `MIN / -1`. -/
theorem tdiv_fits {a b : Int} (ha : minWord ≤ a ∧ a ≤ maxWord) (h : ¬ (a = minWord ∧ b = -1)) :
    minWord ≤ a.tdiv b ∧ a.tdiv b ≤ maxWord := by
  simp only [minWord, maxWord] at *
  by_cases hneg : b = -1
  · subst hneg
    simp only [Int.tdiv_neg, Int.tdiv_one]
    omega
  · have h1 : (a.tdiv b).natAbs = a.natAbs / b.natAbs := Int.natAbs_tdiv a b
    by_cases hone : b = 1
    · subst hone
      simp only [Int.tdiv_one]
      omega
    · by_cases hzero : b = 0
      · subst hzero
        simp
      · have h2 : a.natAbs / b.natAbs ≤ a.natAbs / 2 := Nat.div_le_div_left (by omega) (by omega)
        generalize a.natAbs / b.natAbs = q at *
        omega

/-- The remainder of two words is a word. -/
theorem tmod_fits {a b : Int} (ha : minWord ≤ a ∧ a ≤ maxWord) (hb : minWord ≤ b ∧ b ≤ maxWord) :
    minWord ≤ a.tmod b ∧ a.tmod b ≤ maxWord := by
  by_cases hzero : b = 0
  · subst hzero
    simpa using ha
  · have h1 := natAbs_tmod_lt a hzero
    have h2 := tmod_sign a b
    simp only [minWord, maxWord] at *
    omega

end Sys2Proof.Machine
end

