-- ==== Sys2Proof/Laws/Meanings.lean ====
section
/-! SUPPORT. What each instruction does when it completes, said once (`exec_next`), and the laws of the shared meanings: the
registers popped by RET, the frame it unwinds, the branch. -/

namespace Sys2Proof.Machine

/-- `popRegs` on a stack that holds the words: each register of the list gets the next word from the top. -/
theorem popRegs_eq (rs : List RegName) : ∀ (s : State) (base ws : List Word), s.stack = base ++ ws.reverse →
    ws.length = rs.length →
    popRegs rs s = .ok { s with stack := base, regs := (rs.zip ws).foldl (fun x p => x.put p.1 p.2) s.regs } := by
  induction rs with
  | nil =>
    intro s base ws hs hw
    cases List.length_eq_zero_iff.1 hw
    simp only [List.reverse_nil, List.append_nil] at hs
    subst hs
    rfl
  | cons r rs ih =>
    intro s base ws hs hw
    cases ws with
    | nil => simp at hw
    | cons w ws =>
      have hp : pop s = .ok (w, { s with stack := base ++ ws.reverse }) :=
        pop_eq_ok.2 ⟨by simpa using hs, rfl⟩
      rw [popRegs, hp]
      exact ih _ base ws rfl (by simpa using hw)

/-- `popRegs` only takes words off the stack and writes registers of the list. -/
theorem popRegs_ok {rs : List RegName} : ∀ {s t : State}, popRegs rs s = .ok t →
    (∃ ws, s.stack = t.stack ++ ws ∧ ws.length = rs.length) ∧ t.cfg = s.cfg ∧ t.prog = s.prog ∧ t.pc = s.pc ∧
      t.frames = s.frames ∧ t.st = s.st ∧ t.output = s.output ∧ ∀ q, q ∉ rs → t.reg q = s.reg q := by
  induction rs with
  | nil =>
    intro s t h
    cases h
    exact ⟨⟨[], by simp, rfl⟩, rfl, rfl, rfl, rfl, rfl, rfl, fun _ _ => rfl⟩
  | cons r rs ih =>
    intro s t h
    obtain ⟨⟨v, u⟩, hp, hr⟩ := except_bind_eq_ok.1 h
    obtain ⟨hs, hu⟩ := pop_eq_ok.1 hp
    obtain ⟨⟨ws, hws, hlen⟩, hcfg, hprog, hpc, hframes, hst, hout, hregs⟩ := ih hr
    simp only [State.setReg_stack, State.setReg_cfg, State.setReg_prog, State.setReg_pc, State.setReg_frames,
      State.setReg_st, State.setReg_output] at hws hcfg hprog hpc hframes hst hout
    refine ⟨⟨ws ++ [v], by rw [hs, hws, List.append_assoc], by simp [hlen]⟩, ?_, ?_, ?_, ?_, ?_, ?_, ?_⟩
    · rw [hcfg, hu]
    · rw [hprog, hu]
    · rw [hpc, hu]
    · rw [hframes, hu]
    · rw [hst, hu]
    · rw [hout, hu]
    · intro q hq
      rw [List.mem_cons, not_or] at hq
      rw [hregs q hq.2, State.setReg_reg_other _ _ hq.1, hu]
      rfl

/-- The trap of `popRegs`: some pop found the stack empty. -/
theorem popRegs_error {rs : List RegName} : ∀ {s : State} {e : Trap}, popRegs rs s = .error e →
    e = ⟨.stackUnderflow, -1⟩ := by
  induction rs with
  | nil =>
    intro s e h
    cases h
  | cons r rs ih =>
    intro s e h
    rcases except_bind_eq_error.1 h with hp | ⟨⟨v, u⟩, -, hr⟩
    · exact (pop_eq_error.1 hp).2
    · exact ih hr

/-- `RA_OFFSET = 2`: RET resumes at the popped word. -/
theorem resumeAt_two {cfg : Config} (h : cfg.raOffset = .two) (ra : Word) : resumeAt cfg ra = ra := by
  simp [resumeAt, h]

/-- `RA_OFFSET = 1`: RET resumes one word after the popped word, where that is a word. -/
theorem resumeAt_one {cfg : Config} (h : cfg.raOffset = .one) {ra : Word} (hra : ra.toInt ≠ maxWord) :
    resumeAt cfg ra = ra + 1 := by
  simp [resumeAt, h, hra]

/-- RET on a frame that is all there: the words at its positions go back to `pc` and the saved registers (R162). -/
theorem ret_eq {s : State} {older : List Int} {f : Int} {base ws : List Word} {ra : Word}
    (hF : s.frames = older ++ [f]) (hsp : f ≤ s.sp)
    (hs : s.stack.take (f + 1).toNat = base ++ ws.reverse ++ [ra]) (hw : ws.length = 12) :
    ret s = .ok { s with
      frames := older
      stack := base
      regs := (savedRegs.reverse.zip ws).foldl (fun x p => x.put p.1 p.2) s.regs
      pc := resumeAt s.cfg ra } := by
  have hp : pop (s.unwind f) = .ok (ra, { s.unwind f with stack := base ++ ws.reverse }) :=
    pop_eq_ok.2 ⟨by simpa using hs, rfl⟩
  unfold ret
  rw [hF, List.getLast?_append, List.getLast?_singleton, Option.some_or]
  simp only [Int.not_lt.2 hsp, if_false, hp, except_bind_ok]
  rw [popRegs_eq savedRegs.reverse _ base ws rfl (by simpa [savedRegs] using hw)]
  simp [State.unwind, State.jump, hF]

/-- What RET does whenever it completes: it removes the last entry of `F`, only takes words off the stack, resumes at the word
the entry points at, and writes only the registers CALL saves and `pc`. -/
theorem ret_ok {s t : State} (h : ret s = .ok t) :
    (∃ n, t.stack = s.stack.take n) ∧
      (∃ f ra, s.frames = t.frames ++ [f] ∧ 0 ≤ f ∧ f ≤ s.sp ∧ s.stack[f.toNat]? = some ra ∧
        t.pc = resumeAt s.cfg ra) ∧
      t.cfg = s.cfg ∧ t.prog = s.prog ∧ t.st = s.st ∧ t.output = s.output ∧ ∀ q, q ∉ savedRegs → t.reg q = s.reg q := by
  unfold ret at h
  rcases List.eq_nil_or_concat s.frames with hF | ⟨older, f, hF⟩
  · simp [hF] at h
  · rw [List.concat_eq_append] at hF
    rw [hF, List.getLast?_append, List.getLast?_singleton, Option.some_or] at h
    dsimp only at h
    split at h
    · cases h
    · rename_i hsp
      obtain ⟨⟨ra, u⟩, hp, h⟩ := except_bind_eq_ok.1 h
      obtain ⟨w, hw, h⟩ := except_bind_eq_ok.1 h
      obtain ⟨hs, hu⟩ := pop_eq_ok.1 hp
      obtain ⟨⟨ws, hws, -⟩, hcfg, hprog, -, hframes, hst, hout, hregs⟩ := popRegs_ok hw
      have hlast : (s.stack.take (f + 1).toNat).getLast? = some ra := by
        rw [show s.stack.take (f + 1).toNat = u.stack ++ [ra] from hs]
        simp
      have hf : 0 ≤ f := by
        by_contra hneg
        rw [show (f + 1).toNat = 0 by omega] at hlast
        simp at hlast
      cases h
      simp only [State.jump_stack, State.jump_frames, State.jump_cfg, State.jump_prog, State.jump_st, State.jump_output,
        State.jump_reg, State.jump_pc]
      refine ⟨⟨min w.stack.length (f + 1).toNat, ?_⟩, ⟨f, ra, ?_, ?_, by omega, ?_, rfl⟩, ?_, ?_, ?_, ?_, ?_⟩
      · have : s.stack.take (f + 1).toNat = w.stack ++ (ws ++ [ra]) := by
          rw [← List.append_assoc, ← hws]
          simpa using hs
        rw [← List.take_take, this, List.take_left]
      · rw [hframes, hu]
        simp [hF]
      · exact hf
      · rw [← hlast, List.getLast?_eq_getElem?, List.length_take, List.getElem?_take]
        simp only [State.sp] at hsp
        have : (f + 1).toNat ≤ s.stack.length := by omega
        rw [Nat.min_eq_left this]
        have : (f + 1).toNat - 1 = f.toNat := by omega
        simp [this]
        omega
      · rw [hcfg, hu]
        rfl
      · rw [hprog, hu]
        rfl
      · rw [hst, hu]
        rfl
      · rw [hout, hu]
        rfl
      · intro q hq
        rw [hregs q (by simpa using hq), hu]
        rfl

/-- Why RET fails (R162): no frame, or words of the frame missing. -/
theorem ret_error {s : State} {e : Trap} (h : ret s = .error e) :
    (s.frames = [] ∧ e = ⟨.callStackUnderflow, 0⟩) ∨ e.cause = .stackUnderflow := by
  unfold ret at h
  rcases List.eq_nil_or_concat s.frames with hF | ⟨older, f, hF⟩
  · simp [hF] at h
    exact .inl ⟨hF, h.symm⟩
  · rw [List.concat_eq_append] at hF
    rw [hF, List.getLast?_append, List.getLast?_singleton, Option.some_or] at h
    dsimp only at h
    right
    split at h
    · cases h
      rfl
    · rcases except_bind_eq_error.1 h with hp | ⟨⟨ra, u⟩, -, h⟩
      · rw [(pop_eq_error.1 hp).2]
      · rcases except_bind_eq_error.1 h with hw | ⟨w, -, h⟩
        · rw [popRegs_error hw]
        · cases h

/-- CALL completes exactly with room for its 13 words and its entry (R160). -/
theorem call_eq_ok {addr : Word} {s t : State} :
    call addr s = .ok t ↔ s.stackRoom 13 = true ∧ s.frameRoom = true ∧
      t = { s with stack := s.stack ++ s.frameWords, frames := s.frames ++ [(s.append s.frameWords).sp], pc := addr } := by
  unfold call
  cases s.stackRoom 13 <;> cases s.frameRoom <;> simp [State.jump, State.append, eq_comm]

/-- CALL fails only for want of room, and records `sp` (R190). -/
theorem call_eq_error {addr : Word} {s : State} {e : Trap} :
    call addr s = .error e ↔ (s.stackRoom 13 = false ∨ s.frameRoom = false) ∧ e = exhausted s := by
  unfold call
  cases s.stackRoom 13 <;> cases s.frameRoom <;> simp [eq_comm]

/-- What each instruction does when it completes: the state `t` it leaves from `s`. -/
def Completes (i : Instr) (s t : State) : Prop :=
  match i with
  | .add rd _ => ∃ d v, checkReg s.cfg rd = .ok d ∧ t = (s.setReg d v).advance 3
  | .sub rd _ => ∃ d v, checkReg s.cfg rd = .ok d ∧ t = (s.setReg d v).advance 3
  | .mult rd _ => ∃ d v, checkReg s.cfg rd = .ok d ∧ t = (s.setReg d v).advance 3
  | .div rd _ => ∃ d q r, checkReg s.cfg rd = .ok d ∧ t = (s.writeDivision d q r).advance 3
  | .addi rd _ => ∃ d v, checkReg s.cfg rd = .ok d ∧ t = (s.setReg d v).advance 3
  | .subi rd _ => ∃ d v, checkReg s.cfg rd = .ok d ∧ t = (s.setReg d v).advance 3
  | .multi rd _ => ∃ d v, checkReg s.cfg rd = .ok d ∧ t = (s.setReg d v).advance 3
  | .divi rd _ => ∃ d q r, checkReg s.cfg rd = .ok d ∧ t = (s.writeDivision d q r).advance 3
  | .inc rd => ∃ d v, checkReg s.cfg rd = .ok d ∧ t = (s.setReg d v).advance 2
  | .dec rd => ∃ d v, checkReg s.cfg rd = .ok d ∧ t = (s.setReg d v).advance 2
  | .showReg rs => ∃ r, checkReg s.cfg rs = .ok r ∧ t = (s.out .num (s.reg r)).advance 2
  | .printReg rs => ∃ r, checkReg s.cfg rs = .ok r ∧ t = (s.out .chr (s.reg r)).advance 2
  | .set rd imm => ∃ d, checkReg s.cfg rd = .ok d ∧ t = (s.setReg d imm).advance 3
  | .mov rd rs => ∃ d r, checkReg s.cfg rd = .ok d ∧ checkReg s.cfg rs = .ok r ∧ t = (s.setReg d (s.reg r)).advance 3
  | .push imm => s.stackRoom 1 = true ∧ t = (s.append [imm]).advance 2
  | .pop => ∃ below v, s.stack = below ++ [v] ∧ t = (State.out { s with stack := below } .num v).advance 1
  | .load rs => ∃ r, checkReg s.cfg rs = .ok r ∧ s.stackRoom 1 = true ∧ t = (s.append [s.reg r]).advance 2
  | .store rd => ∃ d below v, checkReg s.cfg rd = .ok d ∧ s.stack = below ++ [v] ∧
      t = (State.setReg { s with stack := below } d v).advance 2
  | .jmp addr => t = s.jump addr
  | .jz rs addr => ∃ r, checkReg s.cfg rs = .ok r ∧ t = s.branch (s.reg r == 0) addr 3
  | .jnz rs addr => ∃ r, checkReg s.cfg rs = .ok r ∧ t = s.branch (s.reg r != 0) addr 3
  | .cmp r1 r2 => ∃ a b, checkReg s.cfg r1 = .ok a ∧ checkReg s.cfg r2 = .ok b ∧
      t = (s.setReg .cmpf (compareFlag (s.reg a) (s.reg b))).advance 3
  | .je addr => t = flagJump .equal addr s
  | .jne addr => t = flagJump .notEqual addr s
  | .jlt addr => t = flagJump .less addr s
  | .jgt addr => t = flagJump .greater addr s
  | .call addr => call addr s = .ok t
  | .ret => ret s = .ok t
  | .stop => t = s.halt
  | .nop => t = s.advance 1

/-- Why an instruction fails in `s` with the trap `e`. -/
def Fails (i : Instr) (s : State) (e : Trap) : Prop :=
  match i with
  | .add rd rs => checkReg s.cfg rd = .error e ∨ checkReg s.cfg rs = .error e ∨ ∃ v, chk s.cfg v = .error e
  | .sub rd rs => checkReg s.cfg rd = .error e ∨ checkReg s.cfg rs = .error e ∨ ∃ v, chk s.cfg v = .error e
  | .mult rd rs => checkReg s.cfg rd = .error e ∨ checkReg s.cfg rs = .error e ∨ ∃ v, chk s.cfg v = .error e
  | .div rd rs => checkReg s.cfg rd = .error e ∨ checkReg s.cfg rs = .error e ∨ ∃ a b, divide s.cfg a b = .error e
  | .addi rd _ => checkReg s.cfg rd = .error e ∨ ∃ v, chk s.cfg v = .error e
  | .subi rd _ => checkReg s.cfg rd = .error e ∨ ∃ v, chk s.cfg v = .error e
  | .multi rd _ => checkReg s.cfg rd = .error e ∨ ∃ v, chk s.cfg v = .error e
  | .divi rd _ => checkReg s.cfg rd = .error e ∨ ∃ a b, divide s.cfg a b = .error e
  | .inc rd => checkReg s.cfg rd = .error e ∨ ∃ v, chk s.cfg v = .error e
  | .dec rd => checkReg s.cfg rd = .error e ∨ ∃ v, chk s.cfg v = .error e
  | .showReg rs => checkReg s.cfg rs = .error e
  | .printReg rs => checkReg s.cfg rs = .error e
  | .set rd _ => checkReg s.cfg rd = .error e
  | .mov rd rs => checkReg s.cfg rd = .error e ∨ checkReg s.cfg rs = .error e
  | .push _ => s.stackRoom 1 = false ∧ e = exhausted s
  | .pop => pop s = .error e
  | .load rs => checkReg s.cfg rs = .error e ∨ (s.stackRoom 1 = false ∧ e = exhausted s)
  | .store rd => checkReg s.cfg rd = .error e ∨ pop s = .error e
  | .jmp _ => False
  | .jz rs _ => checkReg s.cfg rs = .error e
  | .jnz rs _ => checkReg s.cfg rs = .error e
  | .cmp r1 r2 => checkReg s.cfg r1 = .error e ∨ checkReg s.cfg r2 = .error e
  | .je _ => False
  | .jne _ => False
  | .jlt _ => False
  | .jgt _ => False
  | .call addr => call addr s = .error e
  | .ret => ret s = .error e
  | .stop => False
  | .nop => False

theorem arithReg_ok {f : Int → Int → Int} {rd rs : Word} {s t : State} (h : arithReg f rd rs s = .ok t) :
    ∃ d v, checkReg s.cfg rd = .ok d ∧ t = (s.setReg d v).advance 3 := by
  obtain ⟨d, hd, h⟩ := except_bind_eq_ok.1 h
  obtain ⟨r, -, h⟩ := except_bind_eq_ok.1 h
  obtain ⟨v, -, h⟩ := except_bind_eq_ok.1 h
  cases h
  exact ⟨d, v, hd, rfl⟩

theorem arithImm_ok {f : Int → Int → Int} {rd imm : Word} {s t : State} (h : arithImm f rd imm s = .ok t) :
    ∃ d v, checkReg s.cfg rd = .ok d ∧ t = (s.setReg d v).advance 3 := by
  obtain ⟨d, hd, h⟩ := except_bind_eq_ok.1 h
  obtain ⟨v, -, h⟩ := except_bind_eq_ok.1 h
  cases h
  exact ⟨d, v, hd, rfl⟩

theorem arithUnary_ok {f : Int → Int} {rd : Word} {s t : State} (h : arithUnary f rd s = .ok t) :
    ∃ d v, checkReg s.cfg rd = .ok d ∧ t = (s.setReg d v).advance 2 := by
  obtain ⟨d, hd, h⟩ := except_bind_eq_ok.1 h
  obtain ⟨v, -, h⟩ := except_bind_eq_ok.1 h
  cases h
  exact ⟨d, v, hd, rfl⟩

/-- Why a register-register arithmetic instruction fails: a bad register, the first before the second, or `Chk`. -/
theorem arithReg_error {f : Int → Int → Int} {rd rs : Word} {s : State} {e : Trap} (h : arithReg f rd rs s = .error e) :
    checkReg s.cfg rd = .error e ∨ checkReg s.cfg rs = .error e ∨ ∃ v, chk s.cfg v = .error e := by
  rcases except_bind_eq_error.1 h with h | ⟨d, -, h⟩
  · exact .inl h
  · rcases except_bind_eq_error.1 h with h | ⟨r, -, h⟩
    · exact .inr (.inl h)
    · rcases except_bind_eq_error.1 h with h | ⟨v, -, h⟩
      · exact .inr (.inr ⟨_, h⟩)
      · cases h

/-- Why a register-immediate arithmetic instruction fails. -/
theorem arithImm_error {f : Int → Int → Int} {rd imm : Word} {s : State} {e : Trap} (h : arithImm f rd imm s = .error e) :
    checkReg s.cfg rd = .error e ∨ ∃ v, chk s.cfg v = .error e := by
  rcases except_bind_eq_error.1 h with h | ⟨d, -, h⟩
  · exact .inl h
  · rcases except_bind_eq_error.1 h with h | ⟨v, -, h⟩
    · exact .inr ⟨_, h⟩
    · cases h

/-- Why INC or DEC fails. -/
theorem arithUnary_error {f : Int → Int} {rd : Word} {s : State} {e : Trap} (h : arithUnary f rd s = .error e) :
    checkReg s.cfg rd = .error e ∨ ∃ v, chk s.cfg v = .error e := by
  rcases except_bind_eq_error.1 h with h | ⟨d, -, h⟩
  · exact .inl h
  · rcases except_bind_eq_error.1 h with h | ⟨v, -, h⟩
    · exact .inr ⟨_, h⟩
    · cases h

/-- The inversion of an instruction: the state it leads to is the fault it raised, for a reason that `Fails`
names, or what `Completes` says. -/
theorem exec_next {i : Instr} {s t : State} (h : exec i s = .next t) :
    (∃ e, Fails i s e ∧ t = s.raise e) ∨ Completes i s t := by
  cases i with
  | add rd rs =>
    rcases complete_eq_next.1 h with h | ⟨e, he, h⟩
    · exact .inr (arithReg_ok h)
    · exact .inl ⟨e, arithReg_error he, h⟩
  | sub rd rs =>
    rcases complete_eq_next.1 h with h | ⟨e, he, h⟩
    · exact .inr (arithReg_ok h)
    · exact .inl ⟨e, arithReg_error he, h⟩
  | mult rd rs =>
    rcases complete_eq_next.1 h with h | ⟨e, he, h⟩
    · exact .inr (arithReg_ok h)
    · exact .inl ⟨e, arithReg_error he, h⟩
  | div rd rs =>
    rcases complete_eq_next.1 h with h | ⟨e, he, h⟩
    · obtain ⟨d, hd, h⟩ := except_bind_eq_ok.1 h
      obtain ⟨r, -, h⟩ := except_bind_eq_ok.1 h
      obtain ⟨⟨q, m⟩, -, h⟩ := except_bind_eq_ok.1 h
      cases h
      exact .inr ⟨d, q, m, hd, rfl⟩
    · left
      rcases except_bind_eq_error.1 he with he | ⟨_, -, he⟩
      · exact ⟨_, .inl he, h⟩
      · rcases except_bind_eq_error.1 he with he | ⟨_, -, he⟩
        · exact ⟨_, .inr (.inl he), h⟩
        · rcases except_bind_eq_error.1 he with he | ⟨_, -, he⟩
          · exact ⟨_, .inr (.inr ⟨_, _, he⟩), h⟩
          · cases he
  | addi rd imm =>
    rcases complete_eq_next.1 h with h | ⟨e, he, h⟩
    · exact .inr (arithImm_ok h)
    · exact .inl ⟨e, arithImm_error he, h⟩
  | subi rd imm =>
    rcases complete_eq_next.1 h with h | ⟨e, he, h⟩
    · exact .inr (arithImm_ok h)
    · exact .inl ⟨e, arithImm_error he, h⟩
  | multi rd imm =>
    rcases complete_eq_next.1 h with h | ⟨e, he, h⟩
    · exact .inr (arithImm_ok h)
    · exact .inl ⟨e, arithImm_error he, h⟩
  | divi rd imm =>
    rcases complete_eq_next.1 h with h | ⟨e, he, h⟩
    · obtain ⟨d, hd, h⟩ := except_bind_eq_ok.1 h
      obtain ⟨⟨q, m⟩, -, h⟩ := except_bind_eq_ok.1 h
      cases h
      exact .inr ⟨d, q, m, hd, rfl⟩
    · left
      rcases except_bind_eq_error.1 he with he | ⟨_, -, he⟩
      · exact ⟨_, .inl he, h⟩
      · rcases except_bind_eq_error.1 he with he | ⟨_, -, he⟩
        · exact ⟨_, .inr ⟨_, _, he⟩, h⟩
        · cases he
  | inc rd =>
    rcases complete_eq_next.1 h with h | ⟨e, he, h⟩
    · exact .inr (arithUnary_ok h)
    · exact .inl ⟨e, arithUnary_error he, h⟩
  | dec rd =>
    rcases complete_eq_next.1 h with h | ⟨e, he, h⟩
    · exact .inr (arithUnary_ok h)
    · exact .inl ⟨e, arithUnary_error he, h⟩
  | showReg rs =>
    rcases complete_eq_next.1 h with h | ⟨e, he, h⟩
    · obtain ⟨r, hr, h⟩ := except_bind_eq_ok.1 h
      cases h
      exact .inr ⟨r, hr, rfl⟩
    · left
      rcases except_bind_eq_error.1 he with he | ⟨_, -, he⟩
      · exact ⟨_, he, h⟩
      · cases he
  | printReg rs =>
    rcases complete_eq_next.1 h with h | ⟨e, he, h⟩
    · obtain ⟨r, hr, h⟩ := except_bind_eq_ok.1 h
      cases h
      exact .inr ⟨r, hr, rfl⟩
    · left
      rcases except_bind_eq_error.1 he with he | ⟨_, -, he⟩
      · exact ⟨_, he, h⟩
      · cases he
  | set rd imm =>
    rcases complete_eq_next.1 h with h | ⟨e, he, h⟩
    · obtain ⟨d, hd, h⟩ := except_bind_eq_ok.1 h
      cases h
      exact .inr ⟨d, hd, rfl⟩
    · left
      rcases except_bind_eq_error.1 he with he | ⟨_, -, he⟩
      · exact ⟨_, he, h⟩
      · cases he
  | mov rd rs =>
    rcases complete_eq_next.1 h with h | ⟨e, he, h⟩
    · obtain ⟨d, hd, h⟩ := except_bind_eq_ok.1 h
      obtain ⟨r, hr, h⟩ := except_bind_eq_ok.1 h
      cases h
      exact .inr ⟨d, r, hd, hr, rfl⟩
    · left
      rcases except_bind_eq_error.1 he with he | ⟨_, -, he⟩
      · exact ⟨_, .inl he, h⟩
      · rcases except_bind_eq_error.1 he with he | ⟨_, -, he⟩
        · exact ⟨_, .inr he, h⟩
        · cases he
  | push imm =>
    rcases complete_eq_next.1 h with h | ⟨e, he, h⟩
    · obtain ⟨u, hu, h⟩ := except_bind_eq_ok.1 h
      obtain ⟨hroom, rfl⟩ := push_eq_ok.1 hu
      cases h
      exact .inr ⟨hroom, rfl⟩
    · left
      rcases except_bind_eq_error.1 he with he | ⟨_, -, he⟩
      · exact ⟨_, push_eq_error.1 he, h⟩
      · cases he
  | pop =>
    rcases complete_eq_next.1 h with h | ⟨e, he, h⟩
    · obtain ⟨⟨v, u⟩, hp, h⟩ := except_bind_eq_ok.1 h
      obtain ⟨hs, hu⟩ := pop_eq_ok.1 hp
      cases h
      refine .inr ⟨u.stack, v, hs, ?_⟩
      rw [← hu]
    · left
      rcases except_bind_eq_error.1 he with he | ⟨_, -, he⟩
      · exact ⟨_, he, h⟩
      · cases he
  | load rs =>
    rcases complete_eq_next.1 h with h | ⟨e, he, h⟩
    · obtain ⟨r, hr, h⟩ := except_bind_eq_ok.1 h
      obtain ⟨u, hu, h⟩ := except_bind_eq_ok.1 h
      obtain ⟨hroom, rfl⟩ := push_eq_ok.1 hu
      cases h
      exact .inr ⟨r, hr, hroom, rfl⟩
    · left
      rcases except_bind_eq_error.1 he with he | ⟨_, -, he⟩
      · exact ⟨_, .inl he, h⟩
      · rcases except_bind_eq_error.1 he with he | ⟨_, -, he⟩
        · exact ⟨_, .inr (push_eq_error.1 he), h⟩
        · cases he
  | store rd =>
    rcases complete_eq_next.1 h with h | ⟨e, he, h⟩
    · obtain ⟨d, hd, h⟩ := except_bind_eq_ok.1 h
      obtain ⟨⟨v, u⟩, hp, h⟩ := except_bind_eq_ok.1 h
      obtain ⟨hs, hu⟩ := pop_eq_ok.1 hp
      cases h
      refine .inr ⟨d, u.stack, v, hd, hs, ?_⟩
      rw [← hu]
    · left
      rcases except_bind_eq_error.1 he with he | ⟨_, -, he⟩
      · exact ⟨_, .inl he, h⟩
      · rcases except_bind_eq_error.1 he with he | ⟨_, -, he⟩
        · exact ⟨_, .inr he, h⟩
        · cases he
  | jmp addr =>
    cases h
    exact .inr rfl
  | jz rs addr =>
    rcases complete_eq_next.1 h with h | ⟨e, he, h⟩
    · obtain ⟨r, hr, h⟩ := except_bind_eq_ok.1 h
      cases h
      exact .inr ⟨r, hr, rfl⟩
    · left
      rcases except_bind_eq_error.1 he with he | ⟨_, -, he⟩
      · exact ⟨_, he, h⟩
      · cases he
  | jnz rs addr =>
    rcases complete_eq_next.1 h with h | ⟨e, he, h⟩
    · obtain ⟨r, hr, h⟩ := except_bind_eq_ok.1 h
      cases h
      exact .inr ⟨r, hr, rfl⟩
    · left
      rcases except_bind_eq_error.1 he with he | ⟨_, -, he⟩
      · exact ⟨_, he, h⟩
      · cases he
  | cmp r1 r2 =>
    rcases complete_eq_next.1 h with h | ⟨e, he, h⟩
    · obtain ⟨a, ha, h⟩ := except_bind_eq_ok.1 h
      obtain ⟨b, hb, h⟩ := except_bind_eq_ok.1 h
      cases h
      exact .inr ⟨a, b, ha, hb, rfl⟩
    · left
      rcases except_bind_eq_error.1 he with he | ⟨_, -, he⟩
      · exact ⟨_, .inl he, h⟩
      · rcases except_bind_eq_error.1 he with he | ⟨_, -, he⟩
        · exact ⟨_, .inr he, h⟩
        · cases he
  | je addr =>
    cases h
    exact .inr rfl
  | jne addr =>
    cases h
    exact .inr rfl
  | jlt addr =>
    cases h
    exact .inr rfl
  | jgt addr =>
    cases h
    exact .inr rfl
  | call addr =>
    rcases complete_eq_next.1 h with h | ⟨e, he, h⟩
    · exact .inr h
    · exact .inl ⟨e, he, h⟩
  | ret =>
    rcases complete_eq_next.1 h with h | ⟨e, he, h⟩
    · exact .inr h
    · exact .inl ⟨e, he, h⟩
  | stop =>
    cases h
    exact .inr rfl
  | nop =>
    cases h
    exact .inr rfl

end Sys2Proof.Machine
end

