-- ==== Sys2Proof/Laws/PerInstr.lean ====
section
/-! SUPPORT. One statement per instruction, for the statements over all instructions: the words an instruction is encoded in
(R70, R71, R77). -/

namespace Sys2Proof.Laws.EncodedWords

/-- An instruction is encoded in its opcode word followed by its operand words, in the number of words its format says. -/
def Statement (i : Instr) : Prop :=
  ∀ opc : OpcodeMap, (encode opc i).head? = some (opcodeOf opc i.mnemonic) ∧ (encode opc i).length = i.words

theorem add (rd : Word) (rs : Word) : Statement (.add rd rs) := fun _ => ⟨rfl, rfl⟩
theorem sub (rd : Word) (rs : Word) : Statement (.sub rd rs) := fun _ => ⟨rfl, rfl⟩
theorem mult (rd : Word) (rs : Word) : Statement (.mult rd rs) := fun _ => ⟨rfl, rfl⟩
theorem div (rd : Word) (rs : Word) : Statement (.div rd rs) := fun _ => ⟨rfl, rfl⟩
theorem addi (rd : Word) (imm : Word) : Statement (.addi rd imm) := fun _ => ⟨rfl, rfl⟩
theorem subi (rd : Word) (imm : Word) : Statement (.subi rd imm) := fun _ => ⟨rfl, rfl⟩
theorem multi (rd : Word) (imm : Word) : Statement (.multi rd imm) := fun _ => ⟨rfl, rfl⟩
theorem divi (rd : Word) (imm : Word) : Statement (.divi rd imm) := fun _ => ⟨rfl, rfl⟩
theorem inc (rd : Word) : Statement (.inc rd) := fun _ => ⟨rfl, rfl⟩
theorem dec (rd : Word) : Statement (.dec rd) := fun _ => ⟨rfl, rfl⟩
theorem showReg (rs : Word) : Statement (.showReg rs) := fun _ => ⟨rfl, rfl⟩
theorem printReg (rs : Word) : Statement (.printReg rs) := fun _ => ⟨rfl, rfl⟩
theorem set (rd : Word) (imm : Word) : Statement (.set rd imm) := fun _ => ⟨rfl, rfl⟩
theorem mov (rd : Word) (rs : Word) : Statement (.mov rd rs) := fun _ => ⟨rfl, rfl⟩
theorem push (imm : Word) : Statement (.push imm) := fun _ => ⟨rfl, rfl⟩
theorem pop : Statement (.pop) := fun _ => ⟨rfl, rfl⟩
theorem load (rs : Word) : Statement (.load rs) := fun _ => ⟨rfl, rfl⟩
theorem store (rd : Word) : Statement (.store rd) := fun _ => ⟨rfl, rfl⟩
theorem jmp (addr : Word) : Statement (.jmp addr) := fun _ => ⟨rfl, rfl⟩
theorem jz (rs : Word) (addr : Word) : Statement (.jz rs addr) := fun _ => ⟨rfl, rfl⟩
theorem jnz (rs : Word) (addr : Word) : Statement (.jnz rs addr) := fun _ => ⟨rfl, rfl⟩
theorem cmp (r1 : Word) (r2 : Word) : Statement (.cmp r1 r2) := fun _ => ⟨rfl, rfl⟩
theorem je (addr : Word) : Statement (.je addr) := fun _ => ⟨rfl, rfl⟩
theorem jne (addr : Word) : Statement (.jne addr) := fun _ => ⟨rfl, rfl⟩
theorem jlt (addr : Word) : Statement (.jlt addr) := fun _ => ⟨rfl, rfl⟩
theorem jgt (addr : Word) : Statement (.jgt addr) := fun _ => ⟨rfl, rfl⟩
theorem call (addr : Word) : Statement (.call addr) := fun _ => ⟨rfl, rfl⟩
theorem ret : Statement (.ret) := fun _ => ⟨rfl, rfl⟩
theorem stop : Statement (.stop) := fun _ => ⟨rfl, rfl⟩
theorem nop : Statement (.nop) := fun _ => ⟨rfl, rfl⟩

end Sys2Proof.Laws.EncodedWords
end

