-- ==== Sys2Proof/Laws/Step.lean ====
section
/-! SUPPORT. The inversion of the step and of a run, and what every completed instruction keeps. -/

namespace Sys2Proof.Machine

/-- An instruction is fetched exactly where `pc` is in the program and the words there decode to it (R213). -/
theorem fetch_eq_ok {s : State} {i : Instr} :
    fetch s = .ok i ↔ 0 ≤ s.pc.toInt ∧ s.pc.toInt < s.prog.length ∧ decode s.cfg.opc s.wordsAtPc = .ok i := by
  unfold fetch State.pcInProgram
  by_cases h1 : 0 ≤ s.pc.toInt <;> by_cases h2 : s.pc.toInt < s.prog.length <;>
    cases hd : decode s.cfg.opc s.wordsAtPc <;> simp [h1, h2]

/-- Fetching fails outside the program, or with the rejection of the words at `pc` (R186 to R188). -/
theorem fetch_eq_error {s : State} {e : Trap} :
    fetch s = .error e ↔
      ((s.pc.toInt < 0 ∨ s.prog.length ≤ s.pc.toInt) ∧ e = ⟨.fetchOutOfRange, s.pc⟩) ∨
      (0 ≤ s.pc.toInt ∧ s.pc.toInt < s.prog.length ∧
        ∃ r, decode s.cfg.opc s.wordsAtPc = .error r ∧ e = rejectTrap s r) := by
  unfold fetch State.pcInProgram
  by_cases h1 : 0 ≤ s.pc.toInt <;> by_cases h2 : s.pc.toInt < s.prog.length <;>
    cases hd : decode s.cfg.opc s.wordsAtPc <;> simp [h1, h2, eq_comm] <;> (intro; omega)

/-- The step of a running machine (R213). -/
theorem step_running_ok {s : State} {i : Instr} (h : s.st = .running) (hf : fetch s = .ok i) : step s = exec i s := by
  unfold step
  split <;> simp_all

/-- A fetch that fails is taken as a fault. -/
theorem step_running_error {s : State} {e : Trap} (h : s.st = .running) (hf : fetch s = .error e) :
    step s = .next (s.raise e) := by
  unfold step
  split <;> simp_all

/-- The inversion of the step: the machine was running, and it executed the instruction fetched, or took the fault of the
fetch. -/
theorem step_next {s t : State} (h : step s = .next t) :
    s.st = .running ∧ ((∃ i, fetch s = .ok i ∧ exec i s = .next t) ∨ ∃ e, fetch s = .error e ∧ t = s.raise e) := by
  cases hst : s.st with
  | halted => simp [step, hst] at h
  | faulted c p i => simp [step, hst] at h
  | running =>
    cases hf : fetch s with
    | ok i =>
      rw [step_running_ok hst hf] at h
      exact ⟨rfl, .inl ⟨i, rfl, h⟩⟩
    | error e =>
      rw [step_running_error hst hf] at h
      cases h
      exact ⟨rfl, .inr ⟨e, rfl, rfl⟩⟩

/-- The words at `pc` where an opcode stands there. -/
theorem wordsAtPc_of_opcode {s : State} {op : Word} (h : s.prog[s.pc.toInt.toNat]? = some op) :
    s.wordsAtPc = op :: s.prog.drop (s.pc.toInt.toNat + 1) := by
  obtain ⟨hlt, rfl⟩ := List.getElem?_eq_some_iff.1 h
  exact List.drop_eq_getElem_cons hlt

theorem run_zero (s : State) : run 0 s = .next s := rfl

theorem core_run_next {M : Host.Core} {s t : M.State} (h : M.step s = .next t) (k : Nat) :
    M.run (k + 1) s = M.run k t := by
  simp [Host.Core.run, h]

theorem core_run_fault {M : Host.Core} {s : M.State} {e : M.Fault} (h : M.step s = .fault e) (k : Nat) :
    M.run (k + 1) s = .fault e := by
  simp [Host.Core.run, h]

theorem core_run_refused {M : Host.Core} {s : M.State} {e : M.Refusal} (h : M.step s = .refused e) (k : Nat) :
    M.run (k + 1) s = .refused e := by
  simp [Host.Core.run, h]

/-- A run goes on where a step has a next state. -/
theorem run_of_step {s u : State} (h : step s = .next u) (k : Nat) : run (k + 1) s = run k u :=
  core_run_next (M := Sys2Proof.core) h k

/-- A run of `k + 1` steps begins with one step. -/
theorem run_succ_next {k : Nat} {s t : State} :
    run (k + 1) s = .next t ↔ ∃ u, step s = .next u ∧ run k u = .next t := by
  cases h : step s with
  | next u => simp [run_of_step h]
  | fault e =>
    have : run (k + 1) s = .fault e := core_run_fault (M := Sys2Proof.core) h k
    simp [this]
  | refused e =>
    have : run (k + 1) s = .refused e := core_run_refused (M := Sys2Proof.core) h k
    simp [this]

/-- A run of `j + k` steps is a run of `k` steps from where `j` steps lead. -/
theorem run_add {j k : Nat} {s t : State} :
    run (j + k) s = .next t ↔ ∃ u, run j s = .next u ∧ run k u = .next t := by
  induction j generalizing s with
  | zero => simp [run_zero]
  | succ j ih =>
    rw [Nat.succ_add, run_succ_next]
    constructor
    · rintro ⟨v, hv, h⟩
      obtain ⟨u, hu, h⟩ := ih.1 h
      exact ⟨u, run_succ_next.2 ⟨v, hv, hu⟩, h⟩
    · rintro ⟨u, hu, h⟩
      obtain ⟨v, hv, hu⟩ := run_succ_next.1 hu
      exact ⟨v, hv, ih.2 ⟨u, hu, h⟩⟩

/-- A run of `k + 1` steps ends with one step. -/
theorem run_succ_last {k : Nat} {s t : State} :
    run (k + 1) s = .next t ↔ ∃ u, run k s = .next u ∧ step u = .next t := by
  rw [run_add]
  simp [run_succ_next, run_zero]

/-- What every run keeps: a property that every step keeps (R214). -/
theorem run_keeps {P : State → Prop} (hstep : ∀ s t, P s → step s = .next t → P t) :
    ∀ (k : Nat) (s t : State), P s → run k s = .next t → P t := by
  intro k
  induction k with
  | zero =>
    intro s t hs h
    cases h
    exact hs
  | succ k ih =>
    intro s t hs h
    obtain ⟨u, hu, h⟩ := run_succ_next.1 h
    exact ih u t (hstep s u hs hu) h

theorem writeDivision_only (s : State) (d : RegName) (q r : Word) : OnlyRegs [d, .rem] s (s.writeDivision d q r) := by
  unfold State.writeDivision
  split <;> refine ⟨rfl, rfl, rfl, rfl, rfl, rfl, ?_⟩ <;> intro p hp <;>
    simp only [List.mem_cons, List.not_mem_nil, or_false, not_or] at hp
  · rw [State.setReg_reg_other _ _ hp.2, State.setReg_reg_other _ _ hp.1]
  · rw [State.setReg_reg_other _ _ hp.1, State.setReg_reg_other _ _ hp.2]

theorem setReg_only (s : State) (d : RegName) (v : Word) : OnlyRegs [d] s (s.setReg d v) :=
  ⟨rfl, rfl, rfl, rfl, rfl, rfl, fun _ hp => State.setReg_reg_other s v (by simpa using hp)⟩

theorem OnlyRegs.advance {W : List RegName} {s t : State} (h : OnlyRegs W s t) (n : Nat) : OnlyRegs W s (t.advance n) :=
  ⟨h.cfg, h.prog, h.stack, h.frames, h.st, h.output, h.regs⟩

theorem branch_only (s : State) (b : Bool) (a : Word) (n : Nat) : OnlyRegs [] s (s.branch b a n) := by
  unfold State.branch
  split <;> exact ⟨rfl, rfl, rfl, rfl, rfl, rfl, fun _ _ => rfl⟩

/-- The branch goes to its target or past the instruction. -/
theorem branch_pc (s : State) (b : Bool) (a : Word) (n : Nat) :
    (s.branch b a n).pc = if b then a else s.pc + BitVec.ofNat 64 n := by
  cases b <;> rfl

end Sys2Proof.Machine
end

