-- ==== Sys2Proof/Tests/Slice0.lean ====
section
/-! SUPPORT. The model's own tests: the well-formedness checks, every constructor's decoding from words written out from
spec/30_encoding.md R77, one step of the vectors of spec/95_test_vectors.md, and a witness for the hypotheses of every
statement. The expected results come from the spec, not from the model. -/

open Sys2Proof Sys2Proof.Machine

namespace Sys2Proof.Tests

/-- Reset with these program words (spec/95_test_vectors.md, conventions). -/
def start (ws : List Word) : State :=
  State.launch decidedConfig ws

/-- One step, seen through a field; `none` where the step has no next state. -/
def after {α : Type} (f : State → α) (s : State) : Option α :=
  match step s with
  | .next t => some (f t)
  | .fault _ => none
  | .refused _ => none

/-- `n` steps, seen through a field. -/
def afterSteps {α : Type} (n : Nat) (f : State → α) (s : State) : Option α :=
  match run n s with
  | .next t => some (f t)
  | .fault _ => none
  | .refused _ => none

/-- `R1` and `R2` set. -/
def regs2 (a b : Word) (ws : List Word) : State :=
  ((start ws).setReg (.gpr 0) a).setReg (.gpr 1) b

/- Well-formedness: an ill-formed term for the register check, at both ends and in both operand positions. -/

theorem test_wf_refuses_18 : (Instr.set 18 5).wellFormed = false := by decide
theorem test_wf_refuses_negative : (Instr.set (-1) 5).wellFormed = false := by decide
theorem test_wf_refuses_second : (Instr.mov 0 18).wellFormed = false := by decide
theorem test_wf_accepts_ends : (Instr.mov 0 17).wellFormed = true := by decide
theorem test_wf_any_immediate : (Instr.push (-9223372036854775808)).wellFormed = true := by decide

/- Decoding: every opcode of R77, from the words its format gives it (R71). -/

theorem test_decode_RR : decode opcodeTable [0, 1, 2] = .ok (.add 1 2) ∧ decode opcodeTable [1, 1, 2] = .ok (.sub 1 2) ∧
    decode opcodeTable [2, 0, 1] = .ok (.mult 0 1) ∧ decode opcodeTable [3, 0, 1] = .ok (.div 0 1) ∧
    decode opcodeTable [13, 10, 16] = .ok (.mov 10 16) ∧ decode opcodeTable [21, 0, 1] = .ok (.cmp 0 1) := by decide
theorem test_decode_RI : decode opcodeTable [4, 4, 2] = .ok (.addi 4 2) ∧ decode opcodeTable [5, 1, -1] = .ok (.subi 1 (-1)) ∧
    decode opcodeTable [6, 0, 7] = .ok (.multi 0 7) ∧ decode opcodeTable [7, 0, 5] = .ok (.divi 0 5) ∧
    decode opcodeTable [12, 0, 10] = .ok (.set 0 10) := by decide
theorem test_decode_R : decode opcodeTable [8, 2] = .ok (.inc 2) ∧ decode opcodeTable [9, 2] = .ok (.dec 2) ∧
    decode opcodeTable [10, 0] = .ok (.showReg 0) ∧ decode opcodeTable [11, 0] = .ok (.printReg 0) ∧
    decode opcodeTable [16, 0] = .ok (.load 0) ∧ decode opcodeTable [17, 3] = .ok (.store 3) := by decide
theorem test_decode_I_Z : decode opcodeTable [14, 7] = .ok (.push 7) ∧ decode opcodeTable [15] = .ok .pop ∧
    decode opcodeTable [27] = .ok .ret ∧ decode opcodeTable [28] = .ok .stop ∧ decode opcodeTable [29] = .ok .nop := by decide
theorem test_decode_A : decode opcodeTable [18, 9] = .ok (.jmp 9) ∧ decode opcodeTable [22, 40] = .ok (.je 40) ∧
    decode opcodeTable [23, 40] = .ok (.jne 40) ∧ decode opcodeTable [24, 9] = .ok (.jlt 9) ∧
    decode opcodeTable [25, 3] = .ok (.jgt 3) ∧ decode opcodeTable [26, 20] = .ok (.call 20) := by decide
theorem test_decode_RA : decode opcodeTable [19, 1, 30] = .ok (.jz 1 30) ∧ decode opcodeTable [20, 1, 9] = .ok (.jnz 1 9) := by
  decide
theorem test_decode_rejects : decode opcodeTable [30] = .error (.invalidOpcode 30) ∧
    decode opcodeTable [-1] = .error (.invalidOpcode (-1)) ∧ decode opcodeTable [3] = .error (.missingOperand 1) ∧
    decode opcodeTable [3, 99] = .error (.missingOperand 2) ∧ decode opcodeTable [] = .error .noOpcode := by decide
/-- R85, the source's second scenario. -/
theorem test_encode_R85 : [Instr.set 0 1, .set 1 10, .set 2 1, .mult 0 1, .sub 1 2, .jnz 1 9, .showReg 0, .stop].flatMap
    (encode opcodeTable) = [12, 0, 1, 12, 1, 10, 12, 2, 1, 2, 0, 1, 1, 1, 2, 20, 1, 9, 10, 0, 28] := by decide
theorem test_table_word : decodeTableWord 192 (3 * 2 ^ 64 + 5 * 2 ^ 128) = some (.add 3 5) := by decide
theorem test_table_word_short : decodeTableWord 64 28 = some .stop := by decide
theorem test_fetch_word : after (fun t => t.reg (.gpr 3)) (State.reset.withFetchWord 192 (12 + 3 * 2 ^ 64 + 5 * 2 ^ 128)) =
    some 5 := by decide
theorem test_image : wordsOfImage [1, 2, 0, 0, 0, 0, 0, 128] = some [0x8000000000000201] := by decide

/- Arithmetic (V-AR). -/

theorem test_AR1_add : after (fun t => (t.reg (.gpr 0), t.pc)) (regs2 5 (-8) [0, 0, 1]) = some (-3, 3) := by decide
theorem test_AR3_add_overflow : after (fun t => (t.st, t.reg (.gpr 0))) (regs2 9223372036854775807 1 [0, 0, 1]) =
    some (.faulted .arithmeticOverflow 0 (-9223372036854775808), 9223372036854775807) := by decide
theorem test_AR9_sub : after (fun t => t.reg (.gpr 0)) (regs2 (-1) (-9223372036854775808) [1, 0, 1]) =
    some 9223372036854775807 := by decide
theorem test_AR16_mult : after (fun t => t.reg (.gpr 0)) (regs2 (-4294967296) 2147483648 [2, 0, 1]) =
    some (-9223372036854775808) := by decide
theorem test_AR18_mult_overflow : after (fun t => t.st) (regs2 3037000500 0 [2, 0, 0]) =
    some (.faulted .arithmeticOverflow 0 (-9223372036709301616)) := by decide
theorem test_AR25_div : after (fun t => (t.reg (.gpr 0), t.reg .rem)) (regs2 7 (-2) [3, 0, 1]) = some (-3, 1) := by decide
theorem test_AR35_div_zero : after (fun t => t.st) (regs2 (-9223372036854775808) 0 [3, 0, 1]) =
    some (.faulted .divisionByZero 0 (-9223372036854775808)) := by decide
theorem test_AR22_addi_overflow : after (fun t => t.st) (regs2 1 0 [4, 0, 9223372036854775807]) =
    some (.faulted .arithmeticOverflow 0 (-9223372036854775808)) := by decide
theorem test_AR20_addi : after (fun t => (t.reg (.gpr 0), t.pc)) (regs2 40 0 [4, 0, 2]) = some (42, 3) := by decide
theorem test_AR45_subi : after (fun t => t.reg (.gpr 0)) (regs2 (-1) 0 [5, 0, -9223372036854775808]) =
    some 9223372036854775807 := by decide
theorem test_AR49_multi : after (fun t => t.reg (.gpr 0)) (regs2 9223372036854775807 0 [6, 0, -1]) =
    some (-9223372036854775807) := by decide
theorem test_AR54_divi : after (fun t => (t.reg (.gpr 0), t.reg .rem)) (regs2 (-17) 0 [7, 0, -5]) = some (3, -2) := by decide
theorem test_AR55_divi_rem : after (fun t => t.reg .rem) ((start [7, 16, 5]).setReg .rem 17) = some 2 := by decide
theorem test_AR57_inc_overflow : after (fun t => t.st) (regs2 9223372036854775807 0 [8, 0]) =
    some (.faulted .arithmeticOverflow 0 (-9223372036854775808)) := by decide
theorem test_AR59_dec : after (fun t => (t.reg (.gpr 0), t.pc)) (regs2 0 0 [9, 0]) = some (-1, 2) := by decide

/- Move, set and stack (V-MS, V-ST). -/

theorem test_MS5_set_bad : after (fun t => t.st) (start [12, -1, 5]) = some (.faulted .invalidRegister 0 (-1)) := by decide
theorem test_MS2_set : after (fun t => t.reg (.gpr 15)) (start [12, 15, -9223372036854775808]) =
    some (-9223372036854775808) := by decide
theorem test_MS10_mov_first : after (fun t => t.st) (start [13, 18, 19]) = some (.faulted .invalidRegister 0 18) := by decide
theorem test_MS7_mov_rem : after (fun t => t.reg (.gpr 10)) ((start [13, 10, 16]).setReg .rem 4) = some 4 := by decide
theorem test_ST3_push_full : after (fun t => (t.st, t.stack))
    { start [14, 5] with stack := [1, 2], cfg := { decidedConfig with stackLimit := some 2 } } =
    some (.faulted .resourceExhaustion 0 1, [1, 2]) := by decide
theorem test_ST2_push : after (fun t => t.stack) { start [14, -1] with stack := [1, 2] } = some [1, 2, -1] := by decide
theorem test_ST5_pop : after (fun t => (t.stack, t.output, t.pc)) { start [15] with stack := [7, 9] } =
    some ([7], [⟨.num, 9⟩], 1) := by decide
theorem test_ST6_pop_empty : after (fun t => (t.st, t.output)) (start [15]) = some (.faulted .stackUnderflow 0 (-1), []) := by
  decide
theorem test_ST9_load : after (fun t => t.stack) ({ start [16, 17] with stack := [3] }.setReg .cmpf (-1)) = some [3, -1] := by
  decide
theorem test_ST12_store : after (fun t => (t.reg (.gpr 3), t.stack)) { start [17, 3] with stack := [5] } = some (5, []) := by
  decide
theorem test_ST15_store_bad : after (fun t => (t.st, t.stack)) { start [17, 99] with stack := [5] } =
    some (.faulted .invalidRegister 0 99, [5]) := by decide

/- Control flow (V-CF). -/

theorem test_CF3_jump_into_operand : afterSteps 2 (fun t => t.st) (start [18, 1]) = some (.faulted .malformedProgram 1 2) := by
  decide
theorem test_CF5_wild_jump : afterSteps 2 (fun t => t.st) (start [18, -1]) = some (.faulted .fetchOutOfRange (-1) (-1)) := by
  decide
theorem test_CF8_jz : after (fun t => t.pc) (regs2 0 5 [19, 1, 30]) = some 3 := by decide
theorem test_CF12_jnz : after (fun t => t.pc) (regs2 0 (-1) [20, 1, 9]) = some 9 := by decide
theorem test_CF17_cmp : after (fun t => t.reg .cmpf) (regs2 (-9223372036854775808) 9223372036854775807 [21, 0, 1]) =
    some (-1) := by decide
theorem test_CF20_cmp_flag : after (fun t => t.reg .cmpf) ((start [21, 17, 0]).setReg .cmpf 1) = some 1 := by decide
theorem test_je_not_taken : after (fun t => t.pc) ((start [22, 40]).setReg .cmpf (-1)) = some 2 := by decide
theorem test_jne_five : after (fun t => t.pc) ((start [23, 40]).setReg .cmpf 5) = some 40 := by decide
theorem test_jlt_minus_seven : after (fun t => t.pc) ((start [24, 40]).setReg .cmpf (-7)) = some 2 := by decide
theorem test_jlt_taken : after (fun t => t.pc) ((start [24, 40]).setReg .cmpf (-1)) = some 40 := by decide
theorem test_jgt_taken : after (fun t => t.pc) ((start [25, 40]).setReg .cmpf 1) = some 40 := by decide

/- Call and return (V-CR). -/

/-- The start state of V-CR2: `x[i] = i + 1`, REM -16, CMPF 1, `S = [100, 200]`, a CALL 20 at index 6. -/
def callState : State :=
  { start [29, 29, 29, 29, 29, 29, 26, 20] with
    regs := { gpr := #v[1, 2, 3, 4, 5, 6, 7, 8, 9, 10, 11, 12, 13, 14, 15, 16], rem := -16, cmpf := 1 }
    pc := 6
    stack := [100, 200] }

/-- The stack after V-CR2. -/
def frameStack : List Word :=
  [100, 200, 1, 2, 3, 4, 5, 6, 7, 8, 9, 10, -16, 1, 8]

theorem test_CR2_call : after (fun t => (t.stack, t.frames, t.pc)) callState = some (frameStack, [14], 20) := by decide
theorem test_CR6_call_full : after (fun t => (t.st, t.stack))
    { callState with cfg := { decidedConfig with stackLimit := some 14 } } =
    some (.faulted .resourceExhaustion 6 1, [100, 200]) := by decide

/-- The start state of V-CR3 and V-CR4: a RET with two more words on the stack. -/
def retState : State :=
  ({ start [27] with stack := frameStack ++ [55, 56], frames := [14] }.setReg (.gpr 9) 77).setReg (.gpr 10) 5

theorem test_CR4_ret_stack : after (fun t => (t.stack, t.frames, t.pc)) retState = some ([100, 200], [], 8) := by decide
theorem test_CR4_ret_registers : after (fun t => ([0, 1, 8, 9, 10].map fun k => t.reg (.gpr k), t.reg .rem, t.reg .cmpf)) retState =
    some ([1, 2, 9, 10, 5], -16, 1) := by decide
theorem test_CR8_ret_underflow : after (fun t => t.st) { start [27] with stack := frameStack.take 14, frames := [14] } =
    some (.faulted .stackUnderflow 0 13) := by decide
theorem test_CR7_ret_no_frame : after (fun t => t.st) { start [27] with stack := [1, 2, 3] } =
    some (.faulted .callStackUnderflow 0 0) := by decide

/-- A RET that pops `ra` under `RA_OFFSET = 1`, on a frame whose other words are 1. -/
def retOne (ra : Word) : State :=
  { start [27] with
    cfg := { decidedConfig with raOffset := .one }, stack := List.replicate 12 1 ++ [ra], frames := [12] }

theorem test_D10_ret_one : after (fun t => (t.pc, t.stack)) (retOne 7) = some (8, []) := by decide
/-- A popped `MAX` still runs: every effect but `pc` is R162's. -/
theorem test_D10_ret_one_max : after (fun t => (t.st, t.stack, t.frames, t.reg .cmpf)) (retOne 9223372036854775807) =
    some (.running, [], [], 1) := by decide

/- Output, termination and decoding faults (V-IO, V-FL). -/

theorem test_IO2_show : after (fun t => (t.output, t.rendered)) ((start [10, 16]).setReg .rem (-1)) =
    some ([⟨.num, -1⟩], [0x2D, 0x31, 0x0A]) := by decide
theorem test_IO6_print : after (fun t => (t.output, t.rendered)) (regs2 328 0 [11, 0]) = some ([⟨.chr, 328⟩], [0x48]) := by
  decide
theorem test_render_zero_and_min : renderNum 0 = [0x30, 0x0A] ∧ renderNum (-5) = [0x2D, 0x35, 0x0A] ∧
    (renderNum (-9223372036854775808)).length = 21 := by decide
theorem test_IO9_stop : after (fun t => (t.st, t.pc)) { start [29, 28] with pc := 1 } = some (.halted, 1) := by decide
theorem test_IO9_no_further_step : step { start [28] with st := .halted } = .fault .noStepHalted := rfl
theorem test_IO10_nop : after (fun t => (t.st, t.pc)) (start [29, 28]) = some (.running, 1) := by decide
theorem test_FL1_empty_program : after (fun t => t.st) (start []) = some (.faulted .fetchOutOfRange 0 0) := by decide
theorem test_FL5_all_bits : after (fun t => t.st) (start [1099511627776]) =
    some (.faulted .invalidOpcode 0 1099511627776) := by decide
theorem test_FL6_missing_before_bad : after (fun t => t.st) (start [3, 99]) = some (.faulted .malformedProgram 0 2) := by decide

/- ## Witnesses: for every statement with hypotheses, a state and operands that meet them together. -/

theorem witness_opcodes_injective : opcodeTable.Injective ∧ (∀ i j : Fin 18, registerTable[i] = registerTable[j] → i = j) :=
  ⟨opcodeTable_injective, registerTable_injective⟩

/-- DecodeOfEncode, EncodeOfDecode. -/
theorem witness_round_trip : opcodeTable.Injective ∧ decode opcodeTable [4, 4, 2, 28] = .ok (.addi 4 2) :=
  ⟨opcodeTable_injective, by decide⟩

/-- OpcodeIsTheWholeWord: both clauses at the ends of their ranges. -/
theorem witness_opcode_ends : (∀ w, (start [w]).cfg.opc = opcodeTable ∧ AtOpcode (start [w]) w) ∧
    (-1 : Word).toInt < 0 ∧ 29 < (30 : Word).toInt ∧ 0 ≤ (0 : Word).toInt ∧ (29 : Word).toInt ≤ 29 :=
  ⟨fun _ => ⟨rfl, rfl, (show 0 ≤ (0 : Word).toInt by decide), rfl⟩, by decide⟩

/-- TruncatedInstructionRaises and the `RaisesWhenTruncated` clauses: a last opcode word whose operand would stand at `L`. -/
theorem witness_truncated : (start [3, 99]).cfg.opc.Injective ∧
    AtOpcode (start [3, 99]) (opcodeOf (start [3, 99]).cfg.opc .div) ∧
    (start [3, 99]).pc.toInt + Mnemonic.div.format.words - 1 ≥ (start [3, 99]).prog.length :=
  ⟨opcodeTable_injective, by decide, by decide⟩

/-- The `RaisesWhenTruncated` clause of each opcode with operands. -/
theorem witness_truncated_each (op : Word) : (start [op]).cfg.opc = opcodeTable ∧ AtOpcode (start [op]) op ∧
    ((start [op]).prog.length : Int) < (start [op]).pc.toInt + (2 : Nat) ∧
    ((start [op]).prog.length : Int) < (start [op]).pc.toInt + (3 : Nat) :=
  ⟨rfl, ⟨rfl, (show 0 ≤ (0 : Word).toInt by decide), rfl⟩, (show ((1 : Nat) : Int) < (0 : Word).toInt + (2 : Nat) by decide),
    (show ((1 : Nat) : Int) < (0 : Word).toInt + (3 : Nat) by decide)⟩

/-- StepRunsDecodedInstruction. -/
theorem witness_step : (start [8, 2]).st = .running ∧ 0 ≤ (start [8, 2]).pc.toInt ∧
    decode (start [8, 2]).cfg.opc ((start [8, 2]).prog.drop (start [8, 2]).pc.toInt.toNat) = .ok (.inc 2) := by decide

/-- FetchOutsideProgramRaises: below 0 and at `L`. -/
theorem witness_fetch_outside : ({ start [29] with pc := -1 }.st = .running ∧ ({ start [29] with pc := -1 } : State).pc.toInt < 0) ∧
    ((start []).st = .running ∧ ((start []).prog.length : Int) ≤ (start []).pc.toInt) := by decide

/-- StraightLineProgramOrder: the program `NOP; STOP` runs both its instructions. -/
theorem witness_straight_line : (∀ i ∈ [Instr.nop], isStraight i = true) ∧
    afterSteps 1 (fun t => t.st) (start [29, 28]) = some .running ∧ afterSteps 2 (fun t => t.st) (start [29, 28]) = some .halted := by
  decide

/-- RegistersReadBackWrites, and the `NamesReg` hypotheses of all statements, at both ends of the index range. -/
theorem witness_names : (start []).cfg.regidx = registerTable ∧ NamesReg (start []) 0 (.gpr 0) ∧
    NamesReg (start []) 15 (.gpr 15) ∧ NamesReg (start []) 16 .rem ∧ NamesReg (start []) 17 .cmpf :=
  ⟨rfl, by decide⟩

/-- The `BadReg` hypotheses of all statements, next to both ends; and a good first operand before a bad second one. -/
theorem witness_bad_register : BadReg 18 ∧ BadReg (-1) ∧ ¬ BadReg 0 ∧ ¬ BadReg 17 := by decide

/-- InvalidRegisterUniform: both clauses. -/
theorem witness_invalid_register :
    (Instr.add 17 18).regOperands.find? (fun w => decide (BadReg w)) = some 18 ∧
    (Instr.jz (-1) 0).regOperands.find? (fun w => decide (BadReg w)) = some (-1) ∧
    (Instr.add 0 17).wellFormed = true ∧ (start []).st = .running ∧
    ∃ t, exec (.add 0 17) (start []) = .next t := ⟨by decide, by decide, by decide, rfl, _, rfl⟩

/-- OnlyNamedRegistersChange: DIVI changes REM, SET its destination. -/
theorem witness_registers_change :
    (∃ t, exec (.divi 0 5) (regs2 17 0 []) = .next t ∧ t.reg .rem ≠ (regs2 17 0 []).reg .rem) ∧
    ∃ t, exec (.set 3 5) (start []) = .next t ∧ t.reg (.gpr 3) ≠ (start []).reg (.gpr 3) :=
  ⟨⟨_, rfl, by decide⟩, _, rfl, by decide⟩

/-- StackAndFramesHaveFewWriters: PUSH changes the stack, CALL the frame list. -/
theorem witness_stack_changes : (∃ t, exec (.push 7) (start []) = .next t ∧ t.stack ≠ (start []).stack) ∧
    ∃ t, exec (.call 7) (start []) = .next t ∧ t.frames ≠ (start []).frames :=
  ⟨⟨_, rfl, by decide⟩, _, rfl, by decide⟩

/-- ProgramAndParametersConstant, OutputGrowsInOrder, OutputIsNeverRead: a run of two steps; a step that appends, a step that
faults. -/
theorem witness_runs : (∃ t, run 2 (start [29, 28]) = .next t) ∧ (∃ t, step (start [10, 0]) = .next t ∧ t.output ≠ []) ∧
    ∃ t, step (start [15]) = .next t ∧ t.Faulted :=
  ⟨⟨_, rfl⟩, ⟨_, rfl, by decide⟩, _, rfl, .stackUnderflow, 0, -1, by decide⟩

/-- The instruction completes in the state (the hypotheses of PcAfterEachInstruction) and leaves this `pc`. -/
abbrev CompletesAt (i : Instr) (s : State) (p : Word) : Prop :=
  ∃ t, exec i s = .next t ∧ s.st = .running ∧ ¬ t.Faulted ∧ t.pc = p

theorem completesAt {i : Instr} {s t : State} {p : Word} (h : exec i s = .next t) (hs : s.st = .running)
    (ht : t.st = .running ∨ t.st = .halted) (hp : t.pc = p) : CompletesAt i s p :=
  ⟨t, h, hs, (fun ⟨_, _, _, hf⟩ => by rcases ht with ht | ht <;> rw [ht] at hf <;> cases hf), hp⟩

/-- PcAfterEachInstruction: a straight instruction, and the two that always transfer control. -/
theorem witness_pc : isStraight .nop = true ∧ CompletesAt .nop (start [29]) 1 ∧ CompletesAt (.jmp (-1)) (start []) (-1) ∧
    CompletesAt (.call 20) callState 20 ∧ CompletesAt .stop { start [29, 28] with pc := 1 } 1 :=
  ⟨rfl, completesAt rfl rfl (.inl rfl) rfl, completesAt rfl rfl (.inl rfl) rfl, completesAt rfl rfl (.inl rfl) rfl,
    completesAt rfl rfl (.inr rfl) rfl⟩

/-- PcAfterEachInstruction: the conditional jumps, taken and not. -/
theorem witness_pc_conditional : CompletesAt (.jz 0 30) (start []) 30 ∧ CompletesAt (.jz 0 30) (regs2 5 0 []) 3 ∧
    CompletesAt (.jnz 0 30) (regs2 5 0 []) 30 ∧ CompletesAt (.jnz 0 30) (start []) 3 ∧
    CompletesAt (.je 40) (start []) 40 ∧ CompletesAt (.jne 40) (start []) 2 ∧
    CompletesAt (.jlt 40) ((start []).setReg .cmpf (-1)) 40 ∧ CompletesAt (.jgt 40) ((start []).setReg .cmpf (-1)) 2 := by
  refine ⟨?_, ?_, ?_, ?_, ?_, ?_, ?_, ?_⟩ <;> exact completesAt rfl rfl (.inl rfl) rfl

/-- PcAfterEachInstruction, RetFollowsItsRule: a RET under both offsets, and a popped word next to `MAX`. -/
theorem witness_pc_ret : CompletesAt .ret retState 8 ∧ CompletesAt .ret (retOne 7) 8 ∧
    (retOne 7).cfg.raOffset = .one ∧ (7 : Word).toInt ≠ maxWord ∧
    CompletesAt .ret (retOne 9223372036854775806) 9223372036854775807 ∧ (9223372036854775806 : Word).toInt ≠ maxWord := by
  refine ⟨?_, ?_, rfl, by decide, ?_, by decide⟩ <;> exact completesAt rfl rfl (.inl rfl) (by decide)

/-- AddSubMultFollowTheirRules and the other arithmetic rules: a result at the edge of the range, and one just outside. -/
theorem witness_arithmetic : (regs2 9223372036854775806 1 []).cfg.overflow = .fault ∧
    NamesReg (regs2 9223372036854775806 1 []) 0 (.gpr 0) ∧ NamesReg (regs2 9223372036854775806 1 []) 1 (.gpr 1) ∧
    ((regs2 9223372036854775806 1 []).reg (.gpr 0)).toInt + ((regs2 9223372036854775806 1 []).reg (.gpr 1)).toInt = maxWord ∧
    ((regs2 9223372036854775807 1 []).reg (.gpr 0)).toInt + ((regs2 9223372036854775807 1 []).reg (.gpr 1)).toInt =
      maxWord + 1 ∧
    ((regs2 (-9223372036854775808) 1 []).reg (.gpr 0)).toInt - ((regs2 (-9223372036854775808) 1 []).reg (.gpr 1)).toInt =
      minWord - 1 := by decide

/-- DivisionFollowsItsRules: `MIN / -1`, a zero divisor, an ordinary division, and REM as the destination under both
orders. -/
theorem witness_division : ((regs2 (-9223372036854775808) (-1) []).reg (.gpr 0)).toInt = minWord ∧
    ((regs2 (-9223372036854775808) (-1) []).reg (.gpr 1)).toInt = -1 ∧ ((start []).reg (.gpr 1)).toInt = 0 ∧
    ((regs2 7 (-2) []).reg (.gpr 1)).toInt ≠ 0 ∧ NamesReg (start []) 16 .rem ∧
    (start []).cfg.divRemOrder = .remainderLast ∧
    ({ start [] with cfg := { decidedConfig with divRemOrder := .quotientLast } } : State).cfg.divRemOrder = .quotientLast := by
  decide

/-- WrapPolicyResults and RunWithoutOverflowSameUnderWrap. -/
theorem witness_wrap :
    ({ regs2 (-9223372036854775808) (-1) [] with cfg := { decidedConfig with overflow := .wrap } } : State).cfg.overflow = .wrap ∧
    NamesReg { regs2 (-9223372036854775808) (-1) [] with cfg := { decidedConfig with overflow := .wrap } } 0 (.gpr 0) ∧
    NamesReg { regs2 (-9223372036854775808) (-1) [] with cfg := { decidedConfig with overflow := .wrap } } 1 (.gpr 1) ∧
    (∃ t, run 1 (start [0, 0, 1]) = .next t ∧ ∀ pc info, t.st ≠ .faulted .arithmeticOverflow pc info) :=
  ⟨by decide, by decide, by decide, _, rfl, fun _ _ h => by cases h⟩

/-- PushFollowsItsRule, LoadFollowsItsRule, CallFollowsItsRule, StackIsLifo: a stack exactly full, one with exactly room. -/
theorem witness_limits :
    ({ start [] with stack := [1], cfg := { decidedConfig with stackLimit := some 1 } } : State).cfg.stackLimit = some 1 ∧
    1 ≤ ({ start [] with stack := [1], cfg := { decidedConfig with stackLimit := some 1 } } : State).stack.length ∧
    (RoomFor { start [] with stack := [1], cfg := { decidedConfig with stackLimit := some 2 } } 1) ∧
    (RoomFor { start [] with stack := [1], cfg := { decidedConfig with stackLimit := some 14 } } 13) ∧
    (RoomFor (start []) 1000) := by
  refine ⟨rfl, by decide, ?_, ?_, ?_⟩ <;> intro limit h <;> simp_all [start, State.launch, decidedConfig]

/-- CallFollowsItsRule: a frame list exactly full, and one with room; both return-address offsets. -/
theorem witness_frame_limit :
    ({ start [] with frames := [12], cfg := { decidedConfig with frameLimit := some 1 } } : State).cfg.frameLimit = some 1 ∧
    1 < ({ start [] with frames := [12], cfg := { decidedConfig with frameLimit := some 1 } } : State).frames.length + 1 ∧
    (∀ limit, (start []).cfg.frameLimit = some limit → (start []).frames.length + 1 ≤ limit) ∧
    (start []).cfg.raOffset = .two ∧
    ({ start [] with cfg := { decidedConfig with raOffset := .one } } : State).cfg.raOffset = .one :=
  ⟨rfl, by decide, fun _ h => by simp [start, State.launch, decidedConfig] at h, rfl, rfl⟩

/-- PopFollowsItsRule, StoreFollowsItsRule: the empty stack and a stack of one word. -/
theorem witness_stack_ends : (start []).stack = [] ∧ ({ start [] with stack := [5] } : State).stack = [] ++ [5] := by decide

/-- JzJnzFollowTheirRules, CmpFollowsItsRule: a zero and a non-zero register; less, equal and greater. -/
theorem witness_compare : ((start []).reg (.gpr 1)).toInt = 0 ∧ ((regs2 0 (-1) []).reg (.gpr 1)).toInt ≠ 0 ∧
    ((regs2 (-1) 0 []).reg (.gpr 0)).toInt < ((regs2 (-1) 0 []).reg (.gpr 1)).toInt ∧
    ((regs2 7 7 []).reg (.gpr 0)).toInt = ((regs2 7 7 []).reg (.gpr 1)).toInt ∧
    ((regs2 0 (-1) []).reg (.gpr 1)).toInt < ((regs2 0 (-1) []).reg (.gpr 0)).toInt := by decide

/-- FlagJumpsFollowTheirRules, FlagJumpsWithOpenTest: every clause's flag value under its setting. -/
theorem witness_flag_jumps : (start []).cfg.flagTest = .exact ∧
    ({ start [] with cfg := { decidedConfig with flagTest := .unstated } } : State).cfg.flagTest = .unstated ∧
    (((start []).setReg .cmpf (-1)).reg .cmpf).toInt = -1 ∧ (((start []).setReg .cmpf 0).reg .cmpf).toInt = 0 ∧
    (((start []).setReg .cmpf 1).reg .cmpf).toInt = 1 ∧ (((start []).setReg .cmpf 5).reg .cmpf).toInt = 5 := by decide

/-- CompareTakesExactlyOneBranch. -/
theorem witness_one_branch : NamesReg (regs2 1 2 []) 0 (.gpr 0) ∧ NamesReg (regs2 1 2 []) 1 (.gpr 1) ∧
    (regs2 1 2 []).st = .running ∧ ∃ t, exec (.cmp 0 1) (regs2 1 2 []) = .next t ∧ (40 : Word) ≠ t.pc + 2 :=
  ⟨by decide, by decide, rfl, _, rfl, by decide⟩

/-- RetFollowsItsRule: each clause; a frame pointer at its least, 12, and equal to `sp`. -/
theorem witness_ret : (start []).frames = [] ∧
    (({ start [] with frames := [12] } : State).frames = [] ++ [12] ∧ ({ start [] with frames := [12] } : State).sp < 12) ∧
    (({ start [] with frames := [12], stack := List.replicate 13 0 } : State).frames = [] ++ [((12 : Nat) : Int)] ∧ 12 ≤ 12 ∧
      ((12 : Nat) : Int) ≤ ({ start [] with frames := [12], stack := List.replicate 13 0 } : State).sp) := by decide

/-- `CALL 3; STOP`; at 3 the callee `PUSH 5; SET R1,9; CALL 11; RET`; at 11 a callee of its own, `PUSH 6; RET`. -/
def nestProgram : List Word :=
  [26, 3, 28, 14, 5, 12, 0, 9, 26, 11, 27, 14, 6, 27]

/-- RetRestoresWhatCallSaved: a CALL, and the five steps of a callee that pushes, changes R1 and calls in its turn; at their
end stands its RET. Under `RA_OFFSET = 1` the premise on `pc` holds of it too. -/
theorem witness_call_ret : ∃ s1 t, exec (.call 3) (start nestProgram) = .next s1 ∧ s1.st = .running ∧ run 5 s1 = .next t ∧
    (∀ j ≤ 5, ∀ u, run j s1 = .next u → s1.sp ≤ u.sp) ∧ t.frames = s1.frames ∧ t.programWord t.pc = some 27 ∧
    t.reg (.gpr 0) ≠ s1.reg (.gpr 0) ∧ s1.sp < t.sp ∧ (start nestProgram).pc.toInt + 1 ≠ maxWord := by
  refine ⟨_, _, rfl, rfl, rfl, fun j hj u h => ?_, by decide, by decide, by decide, by decide, by decide⟩
  interval_cases j <;> cases h <;> decide

/-- FaultsArePrecise, OnlyListedCausesAreRaised: a step that faults. -/
theorem witness_fault : ∃ t, step (start [15]) = .next t ∧ exec .pop (start [15]) = .next t ∧ (start [15]).st = .running ∧
    t.st = .faulted .stackUnderflow 0 (-1) := ⟨_, rfl, rfl, rfl, by decide⟩

/-- OnlyStopHalts. -/
theorem witness_halt : ∃ t, step (start [28]) = .next t ∧ t.st = .halted := ⟨_, rfl, rfl⟩

/-- LaunchMeetsInvariant and StepKeepsInvariant: a state with the invariant that has a next state. -/
theorem witness_invariant : (start [28]).Inv ∧ ∃ t, step (start [28]) = .next t := by
  refine ⟨⟨by decide, opcodeTable_injective, registerTable_injective, ?_, ?_, ?_, ?_, ?_⟩, _, rfl⟩
  · intro limit h
    simp [start, State.launch, decidedConfig] at h
  · intro limit h
    simp [start, State.launch, decidedConfig] at h
  · intro f h
    simp [start, State.launch, State.reset] at h
  · intro cause pc info h
    simp [start, State.launch, State.reset] at h
  · intro h
    simp [start, State.launch, State.reset] at h

end Sys2Proof.Tests
end

/-! PROOFS of spec/00_scope.md: the invariant at launch and over every step, the constancy of the program and the parameters,
and the read-after-write law of the registers. What a step keeps rests on `Effect`, the few ways in which a completed
instruction changes the state. -/

namespace Sys2Proof.Machine

/-! ### The words at `pc` -/

/-- R76: a list of words that decodes to an instruction begins with the words that encode it. -/
theorem eq_encode_append_of_decode {opc : OpcodeMap} {ws : List Word} {i : Instr} (h : decode opc ws = .ok i) :
    ∃ rest, ws = encode opc i ++ rest := by
  cases ws with
  | nil => cases h
  | cons w ws =>
    cases hm : mnemonicOf opc w with
    | none => simp [decode, hm] at h
    | some m =>
      rw [decode_cons hm] at h
      obtain ⟨rfl, rest, rfl⟩ := readOperands_ok h
      exact ⟨rest, by rw [encode, opcodeOf_of_mnemonicOf hm, List.cons_append]⟩

/-- Where an instruction is fetched, its opcode stands at `pc`. -/
theorem programWord_of_fetch {s : State} {i : Instr} (h : fetch s = .ok i) :
    s.programWord s.pc = some (opcodeOf s.cfg.opc i.mnemonic) := by
  obtain ⟨hpc, -, hdec⟩ := fetch_eq_ok.1 h
  obtain ⟨rest, hws⟩ := eq_encode_append_of_decode hdec
  rw [State.programWord, if_pos hpc, ← List.head?_drop]
  exact congrArg List.head? hws

/-! ### The effects of a completed instruction -/

/-- The ways in which a completed instruction `i` leads from `s` to `t`: the 30 meanings, sorted by the part of the state
that they change beside `pc`; each meaning has one by `Completes.effect`. -/
inductive Effect (s : State) : Instr → State → Prop
  /-- only registers change -/
  | registers {i : Instr} {W : List RegName} {t : State} (h : OnlyRegs W s t) : Effect s i t
  /-- SHOW, PRINT: one event is output -/
  | event {i : Instr} (k : EventKind) (v : Word) (n : Nat) : Effect s i ((s.out k v).advance n)
  /-- PUSH, LOAD: one word goes onto the stack, where there is room -/
  | pushed {i : Instr} (v : Word) (n : Nat) (room : s.stackRoom 1 = true) : Effect s i ((s.append [v]).advance n)
  /-- POP: the top word goes to the output -/
  | popped {i : Instr} {below : List Word} {v : Word} (n : Nat) (h : s.stack = below ++ [v]) :
      Effect s i ((State.out { s with stack := below } .num v).advance n)
  /-- STORE: the top word goes to a register -/
  | stored {i : Instr} {below : List Word} {v : Word} (d : RegName) (n : Nat) (h : s.stack = below ++ [v]) :
      Effect s i ((State.setReg { s with stack := below } d v).advance n)
  /-- CALL -/
  | called {i : Instr} {addr : Word} {t : State} (h : call addr s = .ok t) : Effect s i t
  /-- RET -/
  | returned {i : Instr} {t : State} (h : ret s = .ok t) : Effect s i t
  /-- STOP -/
  | halted : Effect s .stop s.halt

theorem jump_only (s : State) (a : Word) : OnlyRegs [] s (s.jump a) :=
  ⟨rfl, rfl, rfl, rfl, rfl, rfl, fun _ _ => rfl⟩

theorem advance_only (s : State) (n : Nat) : OnlyRegs [] s (s.advance n) :=
  ⟨rfl, rfl, rfl, rfl, rfl, rfl, fun _ _ => rfl⟩

/-- Every completed instruction has one of the effects. -/
theorem Completes.effect {i : Instr} {s t : State} (h : Completes i s t) : Effect s i t := by
  cases i with
  | add | sub | mult | addi | subi | multi | inc | dec =>
    obtain ⟨d, v, -, rfl⟩ := h
    exact .registers ((setReg_only s d v).advance _)
  | div | divi =>
    obtain ⟨d, q, r, -, rfl⟩ := h
    exact .registers ((writeDivision_only s d q r).advance 3)
  | set rd imm =>
    obtain ⟨d, -, rfl⟩ := h
    exact .registers ((setReg_only s d imm).advance 3)
  | mov rd rs =>
    obtain ⟨d, r, -, -, rfl⟩ := h
    exact .registers ((setReg_only s d (s.reg r)).advance 3)
  | cmp r1 r2 =>
    obtain ⟨a, b, -, -, rfl⟩ := h
    exact .registers ((setReg_only s .cmpf _).advance 3)
  | showReg | printReg =>
    obtain ⟨r, -, rfl⟩ := h
    exact .event _ (s.reg r) 2
  | push imm =>
    obtain ⟨room, rfl⟩ := h
    exact .pushed imm 2 room
  | load rs =>
    obtain ⟨r, -, room, rfl⟩ := h
    exact .pushed (s.reg r) 2 room
  | pop =>
    obtain ⟨below, v, hs, rfl⟩ := h
    exact .popped 1 hs
  | store rd =>
    obtain ⟨d, below, v, -, hs, rfl⟩ := h
    exact .stored d 2 hs
  | jz rs addr | jnz rs addr =>
    obtain ⟨r, -, rfl⟩ := h
    exact .registers (branch_only s _ addr 3)
  | je addr | jne addr | jlt addr | jgt addr =>
    cases h
    exact .registers (branch_only s _ addr 2)
  | jmp addr =>
    cases h
    exact .registers (jump_only s addr)
  | nop =>
    cases h
    exact .registers (advance_only s 1)
  | call addr => exact .called h
  | ret => exact .returned h
  | stop =>
    cases h
    exact .halted

/-- The inversion of the step by effects: the machine was running, and it took a fault or fetched an instruction and
completed it. -/
theorem step_effect {s t : State} (h : step s = .next t) :
    s.st = .running ∧ ((∃ e, t = s.raise e) ∨ ∃ i, fetch s = .ok i ∧ Effect s i t) := by
  obtain ⟨hrun, ⟨i, hi, h⟩ | ⟨e, -, h⟩⟩ := step_next h
  · obtain ⟨e, -, h⟩ | h := exec_next h
    · exact ⟨hrun, .inl ⟨e, h⟩⟩
    · exact ⟨hrun, .inr ⟨i, hi, h.effect⟩⟩
  · exact ⟨hrun, .inl ⟨e, h⟩⟩

/-- A frame is 13 words long (R160). -/
@[simp] theorem State.frameWords_length (s : State) : s.frameWords.length = 13 := by
  simp [State.frameWords, savedRegs]

namespace Effect

variable {s t : State} {i : Instr}

/-- R51: no effect touches the program or the parameters. -/
theorem prog_cfg (h : Effect s i t) : t.prog = s.prog ∧ t.cfg = s.cfg := by
  cases h with
  | registers h => exact ⟨h.prog, h.cfg⟩
  | event | pushed | popped | stored | halted => exact ⟨rfl, rfl⟩
  | called h =>
    obtain ⟨-, -, rfl⟩ := call_eq_ok.1 h
    exact ⟨rfl, rfl⟩
  | returned h =>
    obtain ⟨-, -, hcfg, hprog, -⟩ := ret_ok h
    exact ⟨hprog, hcfg⟩

/-- R34: only STOP changes the run state, and STOP changes nothing else. -/
theorem st_cases (h : Effect s i t) : t.st = s.st ∨ (i = .stop ∧ t = s.halt) := by
  cases h with
  | registers h => exact .inl h.st
  | event | pushed | popped | stored => exact .inl rfl
  | called h =>
    obtain ⟨-, -, rfl⟩ := call_eq_ok.1 h
    exact .inl rfl
  | returned h =>
    obtain ⟨-, -, -, -, hst, -⟩ := ret_ok h
    exact .inl hst
  | halted => exact .inr ⟨rfl, rfl⟩

/-- R13, R160: the stack grows only by words it had room for. -/
theorem stack_length_cases (h : Effect s i t) :
    t.stack.length ≤ s.stack.length ∨ ∃ n, s.stackRoom n = true ∧ t.stack.length = s.stack.length + n := by
  cases h with
  | registers h => exact .inl (by rw [h.stack])
  | event | halted => exact .inl le_rfl
  | pushed v n room => exact .inr ⟨1, room, by simp⟩
  | popped n h | stored d n h => exact .inl (by simp [h])
  | called h =>
    obtain ⟨room, -, rfl⟩ := call_eq_ok.1 h
    exact .inr ⟨13, room, by simp⟩
  | returned h =>
    obtain ⟨⟨n, hn⟩, -⟩ := ret_ok h
    exact .inl (by rw [hn]; exact List.length_take_le' n s.stack)

/-- R160, R162: the frame list is kept, loses its last entry, or gets one where it has room; the new entry is the index of
the last of the 13 words of its frame. -/
theorem frames_cases (h : Effect s i t) :
    t.frames = s.frames ∨ (∃ f, s.frames = t.frames ++ [f]) ∨
      (s.frameRoom = true ∧ t.frames = s.frames ++ [(s.stack.length : Int) + 12]) := by
  cases h with
  | registers h => exact .inl h.frames
  | event | pushed | popped | stored | halted => exact .inl rfl
  | called h =>
    obtain ⟨-, room, rfl⟩ := call_eq_ok.1 h
    have hsp : (s.append s.frameWords).sp = (s.stack.length : Int) + 12 := by
      simp only [State.sp, State.append_stack, List.length_append, State.frameWords_length]
      omega
    exact .inr (.inr ⟨room, by rw [hsp]⟩)
  | returned h =>
    obtain ⟨-, ⟨f, -, hf, -⟩, -⟩ := ret_ok h
    exact .inr (.inl ⟨f, hf⟩)

/-- R38: the stack stays within `STACK_LIMIT`. -/
theorem keeps_stackBound (h : Effect s i t) (hs : RoomFor s 0) : RoomFor t 0 := by
  intro limit hlimit
  rw [h.prog_cfg.2] at hlimit
  have hbound := hs limit hlimit
  obtain hle | ⟨n, room, hn⟩ := h.stack_length_cases
  · omega
  · have := stackRoom_iff.1 room limit hlimit
    omega

/-- R38: the frame list stays within `FRAME_LIMIT`. -/
theorem keeps_frameBound (h : Effect s i t)
    (hs : ∀ limit, s.cfg.frameLimit = some limit → s.frames.length ≤ limit) :
    ∀ limit, t.cfg.frameLimit = some limit → t.frames.length ≤ limit := by
  intro limit hlimit
  rw [h.prog_cfg.2] at hlimit
  have hbound := hs limit hlimit
  obtain hF | ⟨f, hF⟩ | ⟨room, hF⟩ := h.frames_cases
  · rwa [hF]
  · rw [hF, List.length_append] at hbound
    omega
  · rw [hF]
    simpa using frameRoom_iff.1 room limit hlimit

/-- R32: no entry below 12 enters the frame list. -/
theorem keeps_framesDeep (h : Effect s i t) (hs : ∀ f ∈ s.frames, 12 ≤ f) : ∀ f ∈ t.frames, 12 ≤ f := by
  intro f hf
  obtain hF | ⟨g, hF⟩ | ⟨-, hF⟩ := h.frames_cases
  · exact hs f (hF ▸ hf)
  · exact hs f (hF ▸ List.mem_append_left [g] hf)
  · rw [hF, List.mem_append, List.mem_singleton] at hf
    obtain hf | rfl := hf
    · exact hs f hf
    · omega

/-- A completed instruction of the running machine keeps the invariant. -/
theorem keeps_inv (h : Effect s i t) (hs : s.Inv) (hrun : s.st = .running) (hfetch : fetch s = .ok i) : t.Inv := by
  obtain ⟨hprog, hcfg⟩ := h.prog_cfg
  refine {
    programBound := hprog ▸ hs.programBound
    opcodesDiffer := hcfg ▸ hs.opcodesDiffer
    registersDiffer := hcfg ▸ hs.registersDiffer
    stackBound := h.keeps_stackBound hs.stackBound
    frameBound := h.keeps_frameBound hs.frameBound
    framesDeep := h.keeps_framesDeep hs.framesDeep
    faultAtPc := ?_
    haltedAtStop := ?_ }
  · intro cause pc info hst
    obtain hsame | ⟨-, rfl⟩ := h.st_cases
    · simp [hsame, hrun] at hst
    · simp at hst
  · intro hst
    obtain hsame | ⟨rfl, rfl⟩ := h.st_cases
    · simp [hsame, hrun] at hst
    · exact programWord_of_fetch hfetch

end Effect

/-! ### The invariant -/

/-- R192: fault entry records `pc` and keeps the invariant. -/
theorem State.Inv.raise {s : State} (hs : s.Inv) (e : Trap) : (s.raise e).Inv where
  programBound := hs.programBound
  opcodesDiffer := hs.opcodesDiffer
  registersDiffer := hs.registersDiffer
  stackBound := hs.stackBound
  frameBound := hs.frameBound
  framesDeep := hs.framesDeep
  faultAtPc _ _ _ hst := by cases hst; rfl
  haltedAtStop hst := by cases hst

/-- Settles O52: a step takes a fault or completes an instruction, and both keep the invariant. -/
theorem stepKeepsInvariant : Obligations.StepKeepsInvariant := by
  intro s t hs h
  obtain ⟨hrun, ⟨e, rfl⟩ | ⟨i, hfetch, heff⟩⟩ := step_effect h
  · exact hs.raise e
  · exact heff.keeps_inv hs hrun hfetch

/-- R39: after a launch the stack and the frame list are empty and the machine is running, so only the program and the tables
have something to meet. -/
theorem launch_inv {cfg : Config} {prog : List Word} (hprog : prog.length < 2 ^ 60) (hopc : cfg.opc.Injective)
    (hreg : ∀ i j : Fin 18, cfg.regidx[i] = cfg.regidx[j] → i = j) : (State.launch cfg prog).Inv where
  programBound := hprog
  opcodesDiffer := hopc
  registersDiffer := hreg
  stackBound _ _ := Nat.zero_le _
  frameBound _ _ := Nat.zero_le _
  framesDeep _ hf := by cases hf
  faultAtPc _ _ _ hst := by cases hst
  haltedAtStop hst := by cases hst

/-- Settles O51: `State.reset` is the launch of the empty program with the decided tables. -/
theorem launchMeetsInvariant : Obligations.LaunchMeetsInvariant :=
  ⟨launch_inv (cfg := decidedConfig) (prog := []) (by decide) opcodeTable_injective registerTable_injective,
    fun _ _ => launch_inv⟩

/-! ### The program and the parameters -/

/-- R6, R51: no step changes the program or the parameters. -/
theorem step_prog_cfg {s t : State} (h : step s = .next t) : t.prog = s.prog ∧ t.cfg = s.cfg := by
  obtain ⟨-, ⟨e, rfl⟩ | ⟨i, -, heff⟩⟩ := step_effect h
  · exact ⟨rfl, rfl⟩
  · exact heff.prog_cfg

/-- A run keeps the program and the parameters. -/
theorem run_prog_cfg {k : Nat} {s t : State} (h : run k s = .next t) : t.prog = s.prog ∧ t.cfg = s.cfg := by
  refine run_keeps (P := fun u => u.prog = s.prog ∧ u.cfg = s.cfg) ?_ k s t ⟨rfl, rfl⟩ h
  rintro u v ⟨hprog, hcfg⟩ hstep
  obtain ⟨hprog', hcfg'⟩ := step_prog_cfg hstep
  exact ⟨hprog'.trans hprog, hcfg'.trans hcfg⟩

/-- Settles O16: the read port depends on the program alone, which a run keeps. -/
theorem programAndParametersConstant : Obligations.ProgramAndParametersConstant := by
  intro k s t h
  obtain ⟨hprog, hcfg⟩ := run_prog_cfg h
  exact ⟨hprog, hcfg, fun a => by simp only [State.programWord, hprog]⟩

/-! ### The registers -/

/-- R11: what a register reads after a write to any register. -/
theorem State.reg_setReg (s : State) (r q : RegName) (v : Word) :
    (s.setReg r v).reg q = if q = r then v else s.reg q := by
  split
  · next h => rw [h, State.setReg_reg_same]
  · next h => rw [State.setReg_reg_other s v h]

/-- R21: the decided index of each general register. -/
theorem registerTable_gpr : ∀ k : Fin 16,
    0 ≤ (BitVec.ofNat 64 k : Word).toInt ∧ (BitVec.ofNat 64 k : Word).toInt ≤ 17 ∧
      registerTable[(BitVec.ofNat 64 k : Word).toInt.toNat]? = some (.gpr k) := by
  decide

/-- Settles O12: the decided table read at each index, and the read-after-write law. -/
theorem registersReadBackWrites : Obligations.RegistersReadBackWrites := by
  refine ⟨fun s k hs => ?_, fun s hs => ?_, State.reg_setReg⟩
  · simpa only [NamesReg, hs] using registerTable_gpr k
  · simp only [NamesReg, hs]
    decide

end Sys2Proof.Machine

/-! PROOFS of spec/10_state.md: what an instruction may change (registers, stack, frame list, output), how it leaves `pc`, the
output stream and the reset values. The frame statements are the fields of `ChangesOnly`, proved once for every instruction;
the output's independence is a commuting law of the step with `State.withPast`. -/

namespace Sys2Proof.Machine

/-! ### What an instruction changes -/

/-- R23, R41: executed in `s`, the instruction may write the register, as a side effect or through its destination word. -/
def MayWrite (i : Instr) (s : State) (r : RegName) : Prop :=
  r ∈ sideEffectRegs i ∨ ∃ w ∈ destinationWords i, NamesReg s w r

/-- The frame of an instruction: the registers, the stack, the frame list and the output each stayed as they were from `s` to
`t`, unless `i` is one of the instructions that write them. -/
structure ChangesOnly (i : Instr) (s t : State) : Prop where
  /-- R23, R24, R25 -/
  regs : ∀ r, MayWrite i s r ∨ t.reg r = s.reg r
  /-- R52 -/
  stack : i.mnemonic ∈ [Mnemonic.push, .load, .call, .pop, .store, .ret] ∨ t.stack = s.stack
  /-- R32 -/
  frames : i.mnemonic ∈ [Mnemonic.call, .ret] ∨ t.frames = s.frames
  /-- R35, R175 -/
  output : (i.mnemonic ∈ [Mnemonic.showReg, .pop, .printReg] ∧ ∃ e, t.output = s.output ++ [e]) ∨ t.output = s.output

/-- R73: a checked operand word names the register that `CheckReg` gives for it. -/
theorem mayWrite_of_checkReg {i : Instr} {s : State} {w : Word} {d : RegName} (hw : destinationWords i = [w])
    (hd : checkReg s.cfg w = .ok d) : MayWrite i s d :=
  .inr ⟨w, hw ▸ List.mem_singleton_self w, checkReg_eq_ok.1 hd⟩

/-- Only registers changed, and only such as the instruction may write. -/
theorem OnlyRegs.changesOnly {W : List RegName} {i : Instr} {s t : State} (h : OnlyRegs W s t)
    (hW : ∀ r ∈ W, MayWrite i s r) : ChangesOnly i s t where
  regs r := or_iff_not_imp_left.2 fun hr => h.regs r fun hmem => hr (hW r hmem)
  stack := .inr h.stack
  frames := .inr h.frames
  output := .inr h.output

/-- R23: the instruction writes the register that its destination word names. -/
theorem setReg_changesOnly {i : Instr} {s : State} {w : Word} {d : RegName} (v : Word) (n : Nat)
    (hw : destinationWords i = [w]) (hd : checkReg s.cfg w = .ok d) :
    ChangesOnly i s ((s.setReg d v).advance n) :=
  ((setReg_only s d v).advance n).changesOnly (List.forall_mem_singleton.2 (mayWrite_of_checkReg hw hd))

/-- R192: a fault changes `st` alone. -/
theorem raise_changesOnly (i : Instr) (s : State) (e : Trap) : ChangesOnly i s (s.raise e) :=
  ⟨fun _ => .inr rfl, .inr rfl, .inr rfl, .inr rfl⟩

/-- A completed instruction writes only the registers and the lists that are its own to write. -/
theorem Completes.changesOnly {i : Instr} {s t : State} (h : Completes i s t) : ChangesOnly i s t := by
  cases i with
  | add | sub | mult | addi | subi | multi | inc | dec =>
    obtain ⟨d, v, hd, rfl⟩ := h
    exact setReg_changesOnly v _ rfl hd
  | div | divi =>
    obtain ⟨d, q, r, hd, rfl⟩ := h
    exact ((writeDivision_only s d q r).advance 3).changesOnly
      (List.forall_mem_cons.2 ⟨mayWrite_of_checkReg rfl hd, fun _ hr => .inl hr⟩)
  | set rd imm =>
    obtain ⟨d, hd, rfl⟩ := h
    exact setReg_changesOnly imm 3 rfl hd
  | mov rd rs =>
    obtain ⟨d, r, hd, -, rfl⟩ := h
    exact setReg_changesOnly (s.reg r) 3 rfl hd
  | store rd =>
    obtain ⟨d, below, v, hd, -, rfl⟩ := h
    refine ⟨fun r => ?_, .inl (by simp [Instr.mnemonic]), .inr rfl, .inr rfl⟩
    by_cases hr : r = d
    · exact .inl (hr ▸ mayWrite_of_checkReg rfl hd)
    · exact .inr (State.setReg_reg_other { s with stack := below } v hr)
  | cmp r1 r2 =>
    obtain ⟨a, b, -, -, rfl⟩ := h
    exact ((setReg_only s .cmpf _).advance 3).changesOnly fun _ hr => .inl hr
  | showReg | printReg =>
    obtain ⟨r, -, rfl⟩ := h
    exact ⟨fun _ => .inr rfl, .inr rfl, .inr rfl, .inl ⟨by simp [Instr.mnemonic], _, rfl⟩⟩
  | push imm =>
    obtain ⟨-, rfl⟩ := h
    exact ⟨fun _ => .inr rfl, .inl (by simp [Instr.mnemonic]), .inr rfl, .inr rfl⟩
  | load rs =>
    obtain ⟨r, -, -, rfl⟩ := h
    exact ⟨fun _ => .inr rfl, .inl (by simp [Instr.mnemonic]), .inr rfl, .inr rfl⟩
  | pop =>
    obtain ⟨below, v, -, rfl⟩ := h
    exact ⟨fun _ => .inr rfl, .inl (by simp [Instr.mnemonic]), .inr rfl, .inl ⟨by simp [Instr.mnemonic], _, rfl⟩⟩
  | jmp addr =>
    cases h
    exact (jump_only s addr).changesOnly (List.forall_mem_nil _)
  | jz rs addr | jnz rs addr =>
    obtain ⟨r, -, rfl⟩ := h
    exact (branch_only s _ addr 3).changesOnly (List.forall_mem_nil _)
  | je addr | jne addr | jlt addr | jgt addr =>
    cases h
    exact (branch_only s _ addr 2).changesOnly (List.forall_mem_nil _)
  | nop =>
    cases h
    exact (advance_only s 1).changesOnly (List.forall_mem_nil _)
  | call addr =>
    obtain ⟨-, -, rfl⟩ := call_eq_ok.1 h
    exact ⟨fun _ => .inr rfl, .inl (by simp [Instr.mnemonic]), .inl (by simp [Instr.mnemonic]), .inr rfl⟩
  | ret =>
    obtain ⟨-, -, -, -, -, hout, hregs⟩ := ret_ok h
    exact ⟨fun r => or_iff_not_imp_left.2 fun hr => hregs r fun hmem => hr (.inl hmem), .inl (by simp [Instr.mnemonic]),
      .inl (by simp [Instr.mnemonic]), .inr hout⟩
  | stop =>
    cases h
    exact ⟨fun _ => .inr rfl, .inr rfl, .inr rfl, .inr rfl⟩

/-- The frame of every instruction, faulting or not. -/
theorem exec_changesOnly {i : Instr} {s t : State} (h : exec i s = .next t) : ChangesOnly i s t := by
  obtain ⟨e, -, rfl⟩ | h := exec_next h
  · exact raise_changesOnly i s e
  · exact h.changesOnly

/-- Settles O14: a register that the instruction may not write reads as before. -/
theorem onlyNamedRegistersChange : Obligations.OnlyNamedRegistersChange :=
  fun _ _ _ r h hne => ((exec_changesOnly h).regs r).resolve_right hne

/-- Settles O15, from the frame of every instruction. -/
theorem stackAndFramesHaveFewWriters : Obligations.StackAndFramesHaveFewWriters :=
  fun _ _ _ h => ⟨(exec_changesOnly h).stack.resolve_right, (exec_changesOnly h).frames.resolve_right⟩

/-! ### How an instruction leaves `pc` -/

/-- R105: the writes of a division leave `pc`. -/
@[simp] theorem State.writeDivision_pc (s : State) (d : RegName) (q r : Word) : (s.writeDivision d q r).pc = s.pc := by
  unfold State.writeDivision
  split <;> rfl

/-- R28: a completed instruction that does not transfer control leaves `pc` past its words. -/
theorem Completes.pc_of_isStraight {i : Instr} {s t : State} (h : Completes i s t) (hi : isStraight i = true) :
    t.pc = s.pc + BitVec.ofNat 64 i.mnemonic.format.words := by
  cases i with
  | add | sub | mult | addi | subi | multi | inc | dec =>
    obtain ⟨d, v, -, rfl⟩ := h
    rfl
  | div | divi =>
    obtain ⟨d, q, r, -, rfl⟩ := h
    rw [State.advance_pc, State.writeDivision_pc]
    rfl
  | showReg | printReg | set =>
    obtain ⟨r, -, rfl⟩ := h
    rfl
  | mov | cmp =>
    obtain ⟨a, b, -, -, rfl⟩ := h
    rfl
  | push =>
    obtain ⟨-, rfl⟩ := h
    rfl
  | pop =>
    obtain ⟨below, v, -, rfl⟩ := h
    rfl
  | load =>
    obtain ⟨r, -, -, rfl⟩ := h
    rfl
  | store =>
    obtain ⟨d, below, v, -, -, rfl⟩ := h
    rfl
  | nop =>
    cases h
    rfl
  | jmp | jz | jnz | je | jne | jlt | jgt | call | ret | stop => cases hi

/-- R141 to R147: a branch goes to its target or past the instruction. -/
theorem branch_pc_cases (s : State) (b : Bool) (a : Word) (n : Nat) :
    (s.branch b a n).pc = a ∨ (s.branch b a n).pc = s.pc + BitVec.ofNat 64 n := by
  cases b
  · exact .inr rfl
  · exact .inl rfl

/-- R140, R160: JMP and CALL leave `pc` at the target. -/
theorem Completes.pc_of_transfer {i : Instr} {s t : State} {a : Word} (h : Completes i s t)
    (hi : i = .jmp a ∨ i = .call a) : t.pc = a := by
  obtain rfl | rfl := hi
  · cases h
    rfl
  · obtain ⟨-, -, rfl⟩ := call_eq_ok.1 h
    rfl

/-- R144 to R147: a flag-conditional jump leaves `pc` at the target or past its two words. -/
theorem Completes.pc_of_flagJump {i : Instr} {s t : State} {a : Word} (h : Completes i s t)
    (hi : i = .je a ∨ i = .jne a ∨ i = .jlt a ∨ i = .jgt a) : t.pc = a ∨ t.pc = s.pc + 2 := by
  obtain rfl | rfl | rfl | rfl := hi <;> cases h <;> exact branch_pc_cases s _ a 2

/-- R141, R142: JZ and JNZ leave `pc` at the target or past their three words. -/
theorem Completes.pc_of_zeroJump {i : Instr} {s t : State} {r a : Word} (h : Completes i s t)
    (hi : i = .jz r a ∨ i = .jnz r a) : t.pc = a ∨ t.pc = s.pc + 3 := by
  obtain rfl | rfl := hi <;> obtain ⟨q, -, rfl⟩ := h <;> exact branch_pc_cases s _ a 3

/-- R162, decision D10: RET resumes at the word its frame pointer points at, or one further. -/
theorem ret_pc {s t : State} (h : ret s = .ok t) :
    ∃ older f ra, s.frames = older ++ [f] ∧ 0 ≤ f ∧ s.stack[f.toNat]? = some ra ∧
      (s.cfg.raOffset = .two → t.pc = ra) ∧ (s.cfg.raOffset = .one → ra.toInt ≠ maxWord → t.pc = ra + 1) := by
  obtain ⟨-, ⟨f, ra, hframes, hf, -, hra, hpc⟩, -⟩ := ret_ok h
  exact ⟨t.frames, f, ra, hframes, hf, hra, fun h2 => hpc.trans (resumeAt_two h2 ra),
    fun h1 hmax => hpc.trans (resumeAt_one h1 hmax)⟩

/-- R192: fault entry leaves the machine faulted. -/
theorem State.raise_faulted (s : State) (e : Trap) : (s.raise e).Faulted :=
  ⟨e.cause, s.pc, e.info, rfl⟩

/-- R34: an instruction that completes does not fault the running machine. -/
theorem Completes.not_faulted {i : Instr} {s t : State} (h : Completes i s t) (hrun : s.st = .running) :
    ¬ t.Faulted := by
  rintro ⟨cause, pc, info, hst⟩
  obtain hsame | ⟨-, rfl⟩ := h.effect.st_cases
  · simp [hsame, hrun] at hst
  · simp at hst

/-- Settles O17: the instruction completed, and `pc` is as its kind of instruction leaves it. -/
theorem pcAfterEachInstruction : Obligations.PcAfterEachInstruction := by
  intro i s t h _ hfault
  obtain ⟨e, -, rfl⟩ | h := exec_next h
  · exact absurd (s.raise_faulted e) hfault
  · refine ⟨h.pc_of_isStraight, fun _ => h.pc_of_transfer, fun _ => h.pc_of_flagJump, fun _ _ => h.pc_of_zeroJump, ?_, ?_⟩
    · rintro rfl
      exact ret_pc h
    · rintro rfl
      cases h
      rfl

/-! ### The output stream -/

/-- Settles O43: a fault leaves the output, and a completed instruction has not faulted. -/
theorem outputGrowsInOrder : Obligations.OutputGrowsInOrder := by
  intro s t h
  obtain ⟨hrun, ⟨i, hfetch, h⟩ | ⟨e, -, rfl⟩⟩ := step_next h
  · obtain ⟨e, -, rfl⟩ | h := exec_next h
    · exact ⟨fun _ => rfl, .inl rfl⟩
    · refine ⟨fun hfault => absurd hfault (h.not_faulted hrun), ?_⟩
      obtain ⟨hi, e, hout⟩ | hout := h.changesOnly.output
      · obtain ⟨-, -, hdec⟩ := fetch_eq_ok.1 hfetch
        exact .inr ⟨e, i, hout, hdec, hi⟩
      · exact .inl hout
  · exact ⟨fun _ => rfl, .inl rfl⟩

/-! ### The output is never read -/

/-- The state with earlier events put before its output: the same machine after a longer past. -/
def State.withPast (past : List Event) (s : State) : State :=
  { s with output := past ++ s.output }

/-- The outcome whose state has earlier events before its output. -/
def outcomeWithPast (past : List Event) : Host.Outcome State Fault Refusal → Host.Outcome State Fault Refusal
  | .next t => .next (t.withPast past)
  | .fault r => .fault r
  | .refused r => .refused r

namespace State

variable (past : List Event) (s : State)

@[simp] theorem withPast_cfg : (s.withPast past).cfg = s.cfg := rfl
@[simp] theorem withPast_st : (s.withPast past).st = s.st := rfl
@[simp] theorem withPast_stack : (s.withPast past).stack = s.stack := rfl
@[simp] theorem withPast_frames : (s.withPast past).frames = s.frames := rfl
@[simp] theorem withPast_reg (r : RegName) : (s.withPast past).reg r = s.reg r := rfl
@[simp] theorem withPast_sp : (s.withPast past).sp = s.sp := rfl
@[simp] theorem withPast_stackRoom (n : Nat) : (s.withPast past).stackRoom n = s.stackRoom n := rfl
@[simp] theorem withPast_frameRoom : (s.withPast past).frameRoom = s.frameRoom := rfl
@[simp] theorem withPast_setReg (r : RegName) (v : Word) :
    (s.withPast past).setReg r v = (s.setReg r v).withPast past := rfl
@[simp] theorem withPast_jump (a : Word) : (s.withPast past).jump a = (s.jump a).withPast past := rfl
@[simp] theorem withPast_advance (n : Nat) : (s.withPast past).advance n = (s.advance n).withPast past := rfl
@[simp] theorem withPast_out (k : EventKind) (v : Word) : (s.withPast past).out k v = (s.out k v).withPast past := by
  simp [out, withPast]
@[simp] theorem withPast_unwind (f : Int) : (s.withPast past).unwind f = (s.unwind f).withPast past := rfl
@[simp] theorem withPast_writeDivision (d : RegName) (q r : Word) :
    (s.withPast past).writeDivision d q r = (s.writeDivision d q r).withPast past := by
  unfold writeDivision
  rw [withPast_cfg]
  split <;> rfl
@[simp] theorem withPast_branch (taken : Bool) (a : Word) (n : Nat) :
    (s.withPast past).branch taken a n = (s.branch taken a n).withPast past := by
  cases taken <;> rfl

end State

section

variable {past : List Event} {s : State}

/-- An instruction whose result commutes with the past has an outcome that does. -/
theorem complete_withPast {r r' : Except Trap State} (h : r' = State.withPast past <$> r) :
    complete (s.withPast past) r' = outcomeWithPast past (complete s r) := by
  subst h
  cases r <;> rfl

end

section

variable (past : List Event) (s : State)

@[simp] theorem push_withPast (v : Word) : push v (s.withPast past) = State.withPast past <$> push v s := by
  unfold push
  rw [State.withPast_stackRoom]
  split <;> rfl

@[simp] theorem pop_withPast : pop (s.withPast past) = Prod.map id (State.withPast past) <$> pop s := by
  unfold pop
  rw [State.withPast_stack]
  split <;> rfl

@[simp] theorem popRegs_withPast (rs : List RegName) :
    popRegs rs (s.withPast past) = State.withPast past <$> popRegs rs s := by
  induction rs generalizing s with
  | nil => rfl
  | cons r rs ih => simp [popRegs, ih]

@[simp] theorem call_withPast (addr : Word) : call addr (s.withPast past) = State.withPast past <$> call addr s := by
  unfold call
  rw [State.withPast_stackRoom, State.withPast_frameRoom]
  split
  · rfl
  · split <;> rfl

@[simp] theorem ret_withPast : ret (s.withPast past) = State.withPast past <$> ret s := by
  unfold ret
  rw [State.withPast_frames]
  split
  · rfl
  · rw [State.withPast_sp]
    split
    · rfl
    · simp

@[simp] theorem flagJump_withPast (c : FlagCond) (addr : Word) :
    flagJump c addr (s.withPast past) = (flagJump c addr s).withPast past :=
  State.withPast_branch past s _ addr 2

/-- Every instruction commutes with the past, because each operation that its meaning is made of does. -/
theorem exec_withPast (i : Instr) : exec i (s.withPast past) = outcomeWithPast past (exec i s) := by
  cases i with
  | add | sub | mult =>
    refine complete_withPast ?_
    simp [arithReg]
  | addi | subi | multi =>
    refine complete_withPast ?_
    simp [arithImm]
  | inc | dec =>
    refine complete_withPast ?_
    simp [arithUnary]
  | div | divi | showReg | printReg | set | mov | push | pop | load | store | jz | jnz | cmp =>
    refine complete_withPast ?_
    simp
  | call addr => exact complete_withPast (call_withPast past s addr)
  | ret => exact complete_withPast (ret_withPast past s)
  | je | jne | jlt | jgt => exact congrArg Host.Outcome.next (flagJump_withPast past s _ _)
  | jmp | stop | nop => rfl

/-- R12: the fetch reads the program at `pc`, and no output. -/
theorem fetch_withPast : fetch (s.withPast past) = fetch s := rfl

/-- R35: the step commutes with the past. -/
theorem step_withPast : step (s.withPast past) = outcomeWithPast past (step s) := by
  unfold step
  rw [State.withPast_st, fetch_withPast]
  split
  · rfl
  · rfl
  · split
    · exact exec_withPast past s _
    · rfl

/-- A state is the one with no output and its output as the past. -/
theorem withPast_clearOutput : State.withPast past { s with output := [] } = { s with output := past } := by
  simp [State.withPast]

end

/-- An outcome is a next state with the past exactly where it was a next state without it. -/
theorem outcomeWithPast_eq_next {past : List Event} {x : Host.Outcome State Fault Refusal} {t : State} :
    outcomeWithPast past x = .next t ↔ ∃ u, x = .next u ∧ t = u.withPast past := by
  cases x <;> simp [outcomeWithPast, eq_comm]

/-- Settles O44: both steps are the step from the empty output, each with its own past. -/
theorem outputIsNeverRead : Obligations.OutputIsNeverRead := by
  intro s t o h
  have hstep (p : List Event) : step { s with output := p } = outcomeWithPast p (step { s with output := [] }) := by
    rw [← step_withPast, withPast_clearOutput]
  obtain ⟨u, hu, rfl⟩ := outcomeWithPast_eq_next.1 ((hstep s.output).symm.trans h)
  refine ⟨u.output, rfl, ?_⟩
  rw [hstep o, hu]
  rfl

/-! ### Reset -/

/-- R39: after reset every register is 0. -/
theorem State.restart_reg (s : State) (r : RegName) : s.restart.reg r = 0 := by
  cases r with
  | gpr k => exact Vector.getElem_replicate k.isLt
  | rem | cmpf => rfl

/-- Settles O10: every field but the registers is a reset value by definition. -/
theorem resetValues : Obligations.ResetValues :=
  ⟨fun s => ⟨s.restart_reg, rfl, rfl, rfl, rfl, rfl, rfl, rfl, rfl⟩, rfl⟩

end Sys2Proof.Machine

/-! PROOFS of spec/20_memory.md: the program image at the loader boundary, its bytes (R54, decision D25) and its reading back
(R63). A word and its eight bytes determine each other; the image follows by induction over the words, or over the bytes eight
at a time. -/

namespace Sys2Proof.Machine

/-! ### A word and its eight bytes -/

/-- R54: a word takes eight bytes of the image. -/
@[simp] theorem bytesOfWord_length (w : Word) : (bytesOfWord w).length = 8 := rfl

/-- D25: byte `j` of a word is its bits `8*j+7` down to `8*j`. -/
theorem bytesOfWord_getElem? (w : Word) (j : Fin 8) :
    (bytesOfWord w)[j.val]? = some (w.extractLsb' (8 * j.val) 8) := by
  fin_cases j <;> rfl

/-- The bytes of the word made of eight bytes are those bytes: the converse of `wordOfBytes_bytesOfWord`. -/
theorem bytesOfWord_wordOfBytes (b0 b1 b2 b3 b4 b5 b6 b7 : Byte) :
    bytesOfWord (wordOfBytes b0 b1 b2 b3 b4 b5 b6 b7) = [b0, b1, b2, b3, b4, b5, b6, b7] := by
  simp (disch := decide) only [bytesOfWord, wordOfBytes, BitVec.extractLsb'_append_eq_of_le,
    BitVec.extractLsb'_append_eq_of_add_le, Nat.reduceSub, BitVec.extractLsb'_eq_self]

/-! ### The image and its first word -/

@[simp] theorem imageOfWords_cons (w : Word) (ws : List Word) :
    imageOfWords (w :: ws) = bytesOfWord w ++ imageOfWords ws := rfl

@[simp] theorem wordsOfImage_nil : wordsOfImage [] = some [] := rfl

/-- R63: reading an image that begins with a word's bytes reads that word first. -/
theorem wordsOfImage_bytesOfWord_append (w : Word) (bs : List Byte) :
    wordsOfImage (bytesOfWord w ++ bs) = (wordsOfImage bs).map (w :: ·) := by
  simp [bytesOfWord, wordsOfImage, wordOfBytes_bytesOfWord]

/-! ### The clauses of the round trip -/

/-- R54, D25: byte `8*i + j` of the image is byte `j` of word `i`; the words before it take `8*i` bytes. -/
theorem imageOfWords_getElem? {ws : List Word} {i : Nat} {w : Word} (h : ws[i]? = some w) (j : Fin 8) :
    (imageOfWords ws)[8 * i + j.val]? = some (w.extractLsb' (8 * j.val) 8) := by
  induction ws generalizing i with
  | nil => simp at h
  | cons v ws ih =>
    cases i with
    | zero =>
      obtain rfl : v = w := by simpa using h
      rw [imageOfWords_cons, List.getElem?_append_left (by simp)]
      simpa using bytesOfWord_getElem? v j
    | succ i =>
      have hrest := ih (i := i) (by simpa using h)
      rwa [imageOfWords_cons, List.getElem?_append_right (by simp; omega),
        show 8 * (i + 1) + j.val - (bytesOfWord v).length = 8 * i + j.val by simp; omega]

/-- R63: the program read from its own image is the program. -/
theorem wordsOfImage_imageOfWords (ws : List Word) : wordsOfImage (imageOfWords ws) = some ws := by
  induction ws with
  | nil => rfl
  | cons w ws ih => rw [imageOfWords_cons, wordsOfImage_bytesOfWord_append, ih, Option.map_some]

/-- Eight bytes or more begin with the eight of a word. -/
theorem exists_eight_bytes {bs : List Byte} (h : 8 ≤ bs.length) :
    ∃ b0 b1 b2 b3 b4 b5 b6 b7 rest, bs = b0 :: b1 :: b2 :: b3 :: b4 :: b5 :: b6 :: b7 :: rest := by
  rcases bs with _ | ⟨b0, _ | ⟨b1, _ | ⟨b2, _ | ⟨b3, _ | ⟨b4, _ | ⟨b5, _ | ⟨b6, _ | ⟨b7, rest⟩⟩⟩⟩⟩⟩⟩⟩ <;> simp at h ⊢

/-- R63: an image is accepted exactly when its length is a multiple of 8; what is left over after the last whole word, one to
seven bytes, is rejected. -/
theorem wordsOfImage_isSome (bs : List Byte) : (wordsOfImage bs).isSome ↔ bs.length % 8 = 0 := by
  induction bs using wordsOfImage.induct with
  | case1 => simp
  | case2 b0 b1 b2 b3 b4 b5 b6 b7 rest ih =>
    rw [wordsOfImage, Option.isSome_map, ih]
    simp only [List.length_cons]
    omega
  | case3 bs hne hshort =>
    have hpos : 0 < bs.length := List.length_pos_iff.2 hne
    have hlt : bs.length < 8 := by
      by_contra hge
      obtain ⟨_, _, _, _, _, _, _, _, _, hbs⟩ := exists_eight_bytes (Nat.le_of_not_lt hge)
      exact hshort _ _ _ _ _ _ _ _ _ hbs
    have hnone : wordsOfImage bs = none := wordsOfImage.eq_3 bs hne hshort
    simp [hnone, Nat.mod_eq_of_lt hlt, hpos.ne']

/-- R63: the image of the words read is the image they were read from. -/
theorem imageOfWords_of_wordsOfImage {bs : List Byte} {ws : List Word} (h : wordsOfImage bs = some ws) :
    imageOfWords ws = bs := by
  induction bs using wordsOfImage.induct generalizing ws with
  | case1 =>
    obtain rfl : [] = ws := by simpa using h
    rfl
  | case2 b0 b1 b2 b3 b4 b5 b6 b7 rest ih =>
    obtain ⟨vs, hvs, rfl⟩ := Option.map_eq_some_iff.1 h
    rw [imageOfWords_cons, bytesOfWord_wordOfBytes, ih hvs]
    rfl
  | case3 bs hne hshort =>
    have hnone : wordsOfImage bs = none := wordsOfImage.eq_3 bs hne hshort
    simp [hnone] at h

/-- Settles O50: the four clauses of the program image. -/
theorem imageRoundTrip : Obligations.ImageRoundTrip :=
  ⟨fun _ _ _ j h => imageOfWords_getElem? h j, wordsOfImage_imageOfWords, wordsOfImage_isSome,
    fun _ _ => imageOfWords_of_wordsOfImage⟩

end Sys2Proof.Machine

/-! PROOFS of spec/30_encoding.md: the round trip of the encoder and the decoder, and the two faults of decoding. What the
step makes of a rejected word sequence is said once (`step_of_decode_error`); that no other fault is an InvalidOpcode rests
on the causes of each instruction (`Fails.cause_mem_possibleCauses`). -/

namespace Sys2Proof.Machine

/-! ### The round trip -/

/-- R82: the words of an instruction decode to it, whatever follows. -/
theorem decode_encode_append {opc : OpcodeMap} (hopc : opc.Injective) (i : Instr) (rest : List Word) :
    decode opc (encode opc i ++ rest) = .ok i := by
  rw [encode, List.cons_append, decode_cons (mnemonicOf_opcodeOf hopc i.mnemonic), readOperands_operands]

/-- Settles O1: the opcode word gives the mnemonic back, the words after it the operands. -/
theorem decodeOfEncode : Obligations.DecodeOfEncode :=
  fun _ i rest hopc => decode_encode_append hopc i rest

/-- Settles O2, which the facts about the fetch rest on too. -/
theorem encodeOfDecode : Obligations.EncodeOfDecode :=
  fun _ _ _ => eq_encode_append_of_decode

/-- D1: the round trip under the decided opcode numbers. -/
theorem decode_encode_opcodeTable (i : Instr) : decode opcodeTable (encode opcodeTable i) = .ok i := by
  simpa using decode_encode_append opcodeTable_injective i []

/-- Settles O3: each word sequence is the encoding of its instruction, by computation. -/
theorem specWordsDecode : Obligations.SpecWordsDecode :=
  ⟨decode_encode_opcodeTable (.add 0 1), decode_encode_opcodeTable (.addi 4 2), decode_encode_opcodeTable (.inc 2),
    decode_encode_opcodeTable (.set 0 10), decode_encode_opcodeTable (.mov 10 16), decode_encode_opcodeTable (.push 7),
    decode_encode_opcodeTable .pop, decode_encode_opcodeTable (.jnz 1 9), decode_encode_opcodeTable (.jlt 9),
    decode_encode_opcodeTable (.call 20), decode_encode_opcodeTable (.showReg 0), decode_encode_opcodeTable .stop⟩

/-! ### The step at an opcode word -/

/-- R213: an opcode word stands in the program, and the words at `pc` begin with it. -/
theorem AtOpcode.words {s : State} {op : Word} (h : AtOpcode s op) :
    0 ≤ s.pc.toInt ∧ s.pc.toInt.toNat < s.prog.length ∧
      s.wordsAtPc = op :: s.prog.drop (s.pc.toInt.toNat + 1) := by
  obtain ⟨-, hpc, hop⟩ := h
  exact ⟨hpc, (List.getElem?_eq_some_iff.1 hop).1, wordsAtPc_of_opcode hop⟩

/-- R186, R187: words at `pc` that the decoder rejects are taken as the fault of the rejection. -/
theorem step_of_decode_error {s : State} {op : Word} {r : Reject} (h : AtOpcode s op)
    (hdec : decode s.cfg.opc s.wordsAtPc = .error r) : step s = .next (s.raise (rejectTrap s r)) := by
  obtain ⟨hpc, hlt, -⟩ := h.words
  obtain ⟨hrun, -, -⟩ := h
  exact step_running_error hrun (fetch_eq_error.2 (.inr ⟨hpc, by omega, r, hdec, rfl⟩))

/-! ### A missing operand word -/

/-- R29: an index that is a word is the word of the natural number it is. -/
theorem ofNat_toNat_toInt {w : Word} (h : 0 ≤ w.toInt) : BitVec.ofNat 64 w.toInt.toNat = w := by
  rw [← BitVec.ofInt_natCast, Int.toNat_of_nonneg h, BitVec.ofInt_toInt]

/-- Settles O5: the operand words run out at the end of the program, so the number of the missing one, counted from `pc`, is
the index `L`. -/
theorem truncatedInstructionRaises : Obligations.TruncatedInstructionRaises := by
  intro s m hopc hat htrunc
  obtain ⟨hpc, hlt, hws⟩ := hat.words
  have hlen : (s.prog.drop (s.pc.toInt.toNat + 1)).length + 1 = s.prog.length - s.pc.toInt.toNat := by
    rw [List.length_drop]
    omega
  have hdec : decode s.cfg.opc s.wordsAtPc = .error (.missingOperand (s.prog.length - s.pc.toInt.toNat)) := by
    rw [hws, decode_cons (mnemonicOf_opcodeOf hopc m), readOperands_missing (by omega), hlen]
  have hindex : s.pc + BitVec.ofNat 64 (s.prog.length - s.pc.toInt.toNat) = BitVec.ofNat 64 s.prog.length := by
    nth_rw 1 [← ofNat_toNat_toInt hpc]
    rw [← BitVec.ofNat_add, Nat.add_sub_of_le hlt.le]
  rw [step_of_decode_error hat hdec, State.raise, rejectTrap, hindex]

/-! ### The decided opcode numbers -/

/-- R77: a mnemonic's opcode number is its place in the table. -/
theorem opcodeOf_opcodeTable_toInt (m : Mnemonic) : (opcodeOf opcodeTable m).toInt = m.index := by
  cases m <;> rfl

/-- R77: every place of the table is a mnemonic's. -/
theorem exists_mnemonic_index : ∀ k : Fin 30, ∃ m ∈ allMnemonics, m.index = k := by
  decide

/-- R72: the opcode words are exactly the words 0 to 29. -/
theorem exists_opcodeOf_opcodeTable_iff {w : Word} :
    (∃ m, opcodeOf opcodeTable m = w) ↔ 0 ≤ w.toInt ∧ w.toInt ≤ 29 := by
  constructor
  · rintro ⟨m, rfl⟩
    rw [opcodeOf_opcodeTable_toInt]
    omega
  · rintro ⟨hlow, hhigh⟩
    obtain ⟨m, -, hm⟩ := exists_mnemonic_index ⟨w.toInt.toNat, by omega⟩
    refine ⟨m, BitVec.eq_of_toInt_eq ?_⟩
    rw [opcodeOf_opcodeTable_toInt, hm, Int.toNat_of_nonneg hlow]

/-! ### The causes an instruction raises -/

theorem checkReg_error_cause {cfg : Config} {w : Word} {e : Trap} (h : checkReg cfg w = .error e) :
    e.cause = .invalidRegister := by
  obtain ⟨-, rfl⟩ := checkReg_eq_error.1 h
  rfl

theorem chk_error_cause {cfg : Config} {v : Int} {e : Trap} (h : chk cfg v = .error e) :
    e.cause = .arithmeticOverflow := by
  obtain ⟨rfl, -⟩ := chk_eq_error.1 h
  rfl

theorem divide_error_cause {cfg : Config} {a b : Int} {e : Trap} (h : divide cfg a b = .error e) :
    e.cause = .divisionByZero ∨ e.cause = .arithmeticOverflow := by
  obtain ⟨-, rfl⟩ | ⟨-, h⟩ := divide_eq_error.1 h
  · exact .inl rfl
  · exact .inr (chk_error_cause h)

theorem pop_error_cause {s : State} {e : Trap} (h : pop s = .error e) : e.cause = .stackUnderflow := by
  obtain ⟨-, rfl⟩ := pop_eq_error.1 h
  rfl

/-- R181: an instruction fails only with a cause that the table gives it. -/
theorem Fails.cause_mem_possibleCauses {i : Instr} {s : State} {e : Trap} (h : Fails i s e) :
    e.cause ∈ possibleCauses i := by
  cases i with
  | add | sub | mult =>
    obtain h | h | ⟨v, h⟩ := h
    · simp [possibleCauses, checkReg_error_cause h]
    · simp [possibleCauses, checkReg_error_cause h]
    · simp [possibleCauses, chk_error_cause h]
  | addi | subi | multi | inc | dec =>
    obtain h | ⟨v, h⟩ := h
    · simp [possibleCauses, checkReg_error_cause h]
    · simp [possibleCauses, chk_error_cause h]
  | div =>
    obtain h | h | ⟨a, b, h⟩ := h
    · simp [possibleCauses, checkReg_error_cause h]
    · simp [possibleCauses, checkReg_error_cause h]
    · obtain h | h := divide_error_cause h <;> simp [possibleCauses, h]
  | divi =>
    obtain h | ⟨a, b, h⟩ := h
    · simp [possibleCauses, checkReg_error_cause h]
    · obtain h | h := divide_error_cause h <;> simp [possibleCauses, h]
  | showReg | printReg | set | jz | jnz => simp [possibleCauses, checkReg_error_cause h]
  | mov | cmp => obtain h | h := h <;> simp [possibleCauses, checkReg_error_cause h]
  | push =>
    obtain ⟨-, rfl⟩ := h
    simp [possibleCauses, exhausted]
  | pop => simp [possibleCauses, pop_error_cause h]
  | load =>
    obtain h | ⟨-, rfl⟩ := h
    · simp [possibleCauses, checkReg_error_cause h]
    · simp [possibleCauses, exhausted]
  | store =>
    obtain h | h := h
    · simp [possibleCauses, checkReg_error_cause h]
    · simp [possibleCauses, pop_error_cause h]
  | call =>
    obtain ⟨-, rfl⟩ := call_eq_error.1 h
    simp [possibleCauses, exhausted]
  | ret =>
    obtain ⟨-, rfl⟩ | h := ret_error h
    · simp [possibleCauses]
    · simp [possibleCauses, h]
  | jmp | je | jne | jlt | jgt | stop | nop => cases h

/-- R181: InvalidOpcode is no cause of an instruction that executes. -/
theorem invalidOpcode_notMem_possibleCauses (i : Instr) : Cause.invalidOpcode ∉ possibleCauses i := by
  cases i <;> simp [possibleCauses]

/-! ### An invalid opcode word -/

/-- R79: once the mnemonic is known, only a missing operand word is rejected. -/
theorem readOperands_error {m : Mnemonic} {ws : List Word} {r : Reject} (h : readOperands m ws = .error r) :
    ∃ k, r = .missingOperand k := by
  by_cases hlen : ws.length + 1 < m.format.words
  · rw [readOperands_missing hlen] at h
    cases h
    exact ⟨_, rfl⟩
  · obtain ⟨i, hi⟩ := readOperands_present (Nat.le_of_not_lt hlen)
    rw [hi] at h
    cases h

/-- R187: fetching at the opcode word of a mnemonic does not raise InvalidOpcode. -/
theorem fetch_error_ne_invalidOpcode {s : State} {w : Word} {m : Mnemonic} {e : Trap} (hat : AtOpcode s w)
    (hm : mnemonicOf s.cfg.opc w = some m) (h : fetch s = .error e) : e.cause ≠ .invalidOpcode := by
  obtain ⟨-, rfl⟩ | ⟨-, -, r, hdec, rfl⟩ := fetch_eq_error.1 h
  · simp
  · obtain ⟨-, -, hws⟩ := hat.words
    rw [hws, decode_cons hm] at hdec
    obtain ⟨k, rfl⟩ := readOperands_error hdec
    simp [rejectTrap]

/-- R72, R187: a step at the opcode word of a mnemonic does not raise InvalidOpcode. -/
theorem step_ne_invalidOpcode {s t : State} {w pc info : Word} {m : Mnemonic} (hat : AtOpcode s w)
    (hm : mnemonicOf s.cfg.opc w = some m) (h : step s = .next t) : t.st ≠ .faulted .invalidOpcode pc info := by
  obtain ⟨hrun, ⟨i, -, h⟩ | ⟨e, he, rfl⟩⟩ := step_next h
  · obtain ⟨e, he, rfl⟩ | h := exec_next h
    · have hcause : e.cause ≠ .invalidOpcode := fun hc =>
        invalidOpcode_notMem_possibleCauses i (hc ▸ he.cause_mem_possibleCauses)
      simp [hcause]
    · exact fun hst => h.not_faulted hrun ⟨_, _, _, hst⟩
  · simp [fetch_error_ne_invalidOpcode hat hm he]

/-- R187: a word that is no opcode raises InvalidOpcode, which records it. -/
theorem step_of_not_opcode {s : State} {w : Word} (hat : AtOpcode s w) (hw : mnemonicOf s.cfg.opc w = none) :
    step s = .next (faultedFrom s .invalidOpcode w) := by
  obtain ⟨-, -, hws⟩ := hat.words
  exact step_of_decode_error hat (r := .invalidOpcode w) (by simp [hws, decode, hw])

/-- Settles O4: the opcode words are 0 to 29, and the step raises InvalidOpcode at a word exactly where it is none of
them. -/
theorem opcodeIsTheWholeWord : Obligations.OpcodeIsTheWholeWord := by
  intro s w hopc hat
  refine ⟨fun hout => step_of_not_opcode hat ?_, fun hin => ?_⟩
  · rw [hopc, mnemonicOf_eq_none]
    intro m hm
    have hrange := exists_opcodeOf_opcodeTable_iff.1 ⟨m, hm⟩
    omega
  · obtain ⟨m, rfl⟩ := exists_opcodeOf_opcodeTable_iff.2 hin
    have hm : mnemonicOf s.cfg.opc (opcodeOf opcodeTable m) = some m := by
      rw [hopc, mnemonicOf_opcodeOf opcodeTable_injective]
    exact ⟨⟨m, rfl⟩, fun t h pc info => step_ne_invalidOpcode hat hm h⟩

end Sys2Proof.Machine

/-! PROOFS of spec/40_arithmetic.md: the arithmetic instructions under both overflow policies, and the run that the policy
does not matter to. The instructions share two ends, said once each: a result through `Chk` into the destination
(`State.writeResult`), and a division into the destination and REM (`State.writeQuotient`). That a run without an overflow
is the same run under `wrap` is a commuting law of the step with `State.underWrap`, composed from the same law of each
operation. -/

namespace Sys2Proof.Machine

/-! ### Missing operands and bad registers -/

/-- R79, decision D1: what O5 says for the decided opcode numbers. -/
theorem raisesWhenTruncated (m : Mnemonic) : RaisesWhenTruncated (opcodeOf opcodeTable m) m.format.words := by
  intro s hopc hat htrunc
  rw [← hopc] at hat
  exact truncatedInstructionRaises s m (hopc ▸ opcodeTable_injective) hat (by omega)

section

variable {s : State} {w w' : Word}

/-- R73: a word in 0..17 is no bad register. -/
theorem exists_checkReg_of_not_badReg (h : ¬ BadReg w) : ∃ r, checkReg s.cfg w = .ok r :=
  (checkReg_total s.cfg w).resolve_right fun he => h (checkReg_eq_error.1 he).1

/-- R184: an instruction that checks a bad register first raises InvalidRegister, whatever comes after. -/
theorem complete_badReg (h : BadReg w) (k : RegName → Except Trap State) :
    complete s (checkReg s.cfg w >>= k) = .next (faultedFrom s .invalidRegister w) := by
  rw [checkReg_eq_error.2 ⟨h, rfl⟩]
  rfl

/-- R184: an instruction that checks a bad register after a good one raises InvalidRegister for the bad one. -/
theorem complete_badReg_second (h : ¬ BadReg w) (h' : BadReg w') (k : RegName → RegName → Except Trap State) :
    complete s (checkReg s.cfg w >>= fun d => checkReg s.cfg w' >>= k d) =
      .next (faultedFrom s .invalidRegister w') := by
  obtain ⟨d, hd⟩ := exists_checkReg_of_not_badReg (s := s) h
  rw [hd]
  exact complete_badReg h' (k d)

end

/-! ### One result -/

/-- The end that the instructions with one result share: the exact result `v` goes through `Chk` into register `d`, and `pc`
past the `n` words of the instruction (R101). -/
def State.writeResult (s : State) (d : RegName) (n : Nat) (v : Int) : Except Trap State := do
  let w ← chk s.cfg v
  pure ((s.setReg d w).advance n)

section

variable {s : State} {d r : RegName} {rd rs : Word}

/-- R102 to R104: with good registers a register-register instruction comes to its result. -/
theorem arithReg_eq (f : Int → Int → Int) (hd : NamesReg s rd d) (hr : NamesReg s rs r) :
    arithReg f rd rs s = s.writeResult d 3 (f (s.reg d).toInt (s.reg r).toInt) := by
  rw [arithReg, checkReg_eq_ok.2 hd, checkReg_eq_ok.2 hr]
  rfl

/-- R106 to R108: with a good register a register-immediate instruction comes to its result. -/
theorem arithImm_eq (f : Int → Int → Int) (imm : Word) (hd : NamesReg s rd d) :
    arithImm f rd imm s = s.writeResult d 3 (f (s.reg d).toInt imm.toInt) := by
  rw [arithImm, checkReg_eq_ok.2 hd]
  rfl

/-- R110, R111: with a good register INC and DEC come to their result. -/
theorem arithUnary_eq (f : Int → Int) (hd : NamesReg s rd d) :
    arithUnary f rd s = s.writeResult d 2 (f (s.reg d).toInt) := by
  rw [arithUnary, checkReg_eq_ok.2 hd]
  rfl

variable {i : Instr} {n : Nat} {v : Int}

/-- R101: a result that `Chk` lets through, because it fits or because the policy wraps, is written to the destination
alone. -/
theorem exec_result (h : exec i s = complete s (s.writeResult d n v))
    (hv : s.cfg.overflow = .wrap ∨ (minWord ≤ v ∧ v ≤ maxWord)) :
    ∃ t, exec i s = .next t ∧ t.reg d = wordOfInt v ∧ t.pc = s.pc + BitVec.ofNat 64 n ∧ OnlyRegs [d] s t := by
  refine ⟨(s.setReg d (wordOfInt v)).advance n, ?_, s.setReg_reg_same d _, rfl, (setReg_only s d _).advance n⟩
  rw [h, State.writeResult, chk_eq_ok.2 ⟨rfl, hv⟩]
  rfl

/-- R101, R189: under the policy `fault` the result is exact, or it raises ArithmeticOverflow. -/
theorem exec_result_or_overflow (hfault : s.cfg.overflow = .fault) (h : exec i s = complete s (s.writeResult d n v)) :
    (minWord ≤ v ∧ v ≤ maxWord →
      ∃ t, exec i s = .next t ∧ (t.reg d).toInt = v ∧ t.pc = s.pc + BitVec.ofNat 64 n ∧ OnlyRegs [d] s t) ∧
    (v < minWord ∨ maxWord < v → Raises i s .arithmeticOverflow (BitVec.ofInt 64 v)) := by
  constructor
  · intro hv
    obtain ⟨t, ht, hreg, hpc, honly⟩ := exec_result h (.inr hv)
    exact ⟨t, ht, by rw [hreg, toInt_wordOfInt hv.1 hv.2], hpc, honly⟩
  · intro hv
    rw [Raises, h, State.writeResult, chk_eq_error.2 ⟨rfl, hfault, by omega⟩]
    rfl

end

section

variable {op : Word} {f : Int → Int → Int} {mk : Word → Word → Instr}

/-- An instruction whose meaning is `arithReg f` follows the register-register rule. -/
theorem arithRegRule (henc : ∀ rd rs, encode opcodeTable (mk rd rs) = [op, rd, rs]) (htrunc : RaisesWhenTruncated op 3)
    (hexec : ∀ rd rs s, exec (mk rd rs) s = complete s (arithReg f rd rs s)) : ArithRegRule mk op f := by
  refine ⟨henc, htrunc, fun s rd rs hbad => ?_, fun s rd rs hgood hbad => ?_, fun s rd rs d r hfault hd hr => ?_⟩
  · exact (hexec rd rs s).trans (complete_badReg hbad _)
  · exact (hexec rd rs s).trans (complete_badReg_second hgood hbad _)
  · exact exec_result_or_overflow hfault ((hexec rd rs s).trans (by rw [arithReg_eq f hd hr]))

/-- An instruction whose meaning is `arithImm f` follows the register-immediate rule. -/
theorem arithImmRule (henc : ∀ rd imm, encode opcodeTable (mk rd imm) = [op, rd, imm])
    (htrunc : RaisesWhenTruncated op 3)
    (hexec : ∀ rd imm s, exec (mk rd imm) s = complete s (arithImm f rd imm s)) : ArithImmRule mk op f := by
  refine ⟨henc, htrunc, fun s rd imm hbad => ?_, fun s rd imm d hfault hd => ?_⟩
  · exact (hexec rd imm s).trans (complete_badReg hbad _)
  · exact exec_result_or_overflow hfault ((hexec rd imm s).trans (by rw [arithImm_eq f imm hd]))

/-- An instruction whose meaning adds `k` to a register follows the unary rule. -/
theorem arithUnaryRule {mk : Word → Instr} {k : Int} (henc : ∀ rd, encode opcodeTable (mk rd) = [op, rd])
    (htrunc : RaisesWhenTruncated op 2)
    (hexec : ∀ rd s, exec (mk rd) s = complete s (arithUnary (fun a => a + k) rd s)) : ArithUnaryRule mk op k := by
  refine ⟨henc, htrunc, fun s rd hbad => ?_, fun s rd d hfault hd => ?_⟩
  · exact (hexec rd s).trans (complete_badReg hbad _)
  · exact exec_result_or_overflow hfault ((hexec rd s).trans (by rw [arithUnary_eq _ hd]))

end

/-- Settles O18: the three meanings are `arithReg` of the three operations. -/
theorem addSubMultFollowTheirRules : Obligations.AddSubMultFollowTheirRules :=
  ⟨arithRegRule (fun _ _ => rfl) (raisesWhenTruncated .add) fun _ _ _ => rfl,
    arithRegRule (fun _ _ => rfl) (raisesWhenTruncated .sub) fun _ _ _ => rfl,
    arithRegRule (fun _ _ => rfl) (raisesWhenTruncated .mult) fun _ _ _ => rfl⟩

/-- Settles O19: the three meanings are `arithImm` of the three operations. -/
theorem addiSubiMultiFollowTheirRules : Obligations.AddiSubiMultiFollowTheirRules :=
  ⟨arithImmRule (fun _ _ => rfl) (raisesWhenTruncated .addi) fun _ _ _ => rfl,
    arithImmRule (fun _ _ => rfl) (raisesWhenTruncated .subi) fun _ _ _ => rfl,
    arithImmRule (fun _ _ => rfl) (raisesWhenTruncated .multi) fun _ _ _ => rfl⟩

/-- Settles O20: INC adds 1 and DEC adds -1. -/
theorem incDecFollowTheirRules : Obligations.IncDecFollowTheirRules :=
  ⟨arithUnaryRule (fun _ => rfl) (raisesWhenTruncated .inc) fun _ _ => rfl,
    arithUnaryRule (fun _ => rfl) (raisesWhenTruncated .dec) fun _ _ => rfl⟩

/-! ### Division -/

/-- The end that DIV and DIVI share: the quotient and the remainder of `a / b` go to register `d` and to REM (R105, R109). -/
def State.writeQuotient (s : State) (d : RegName) (a b : Int) : Except Trap State := do
  let (q, m) ← divide s.cfg a b
  pure ((s.writeDivision d q m).advance 3)

/-- From `s` to `t` a division wrote the quotient `q` to `d` and the remainder `r` to REM, in the order of
`DIV_REM_ORDER` (R105, decision D8). -/
structure DivisionWritten (s t : State) (d : RegName) (q r : Word) : Prop where
  pc : t.pc = s.pc + 3
  only : OnlyRegs [d, .rem] s t
  other : d ≠ .rem → t.reg d = q ∧ t.reg .rem = r
  remainderLast : d = .rem → s.cfg.divRemOrder = .remainderLast → t.reg .rem = r
  quotientLast : d = .rem → s.cfg.divRemOrder = .quotientLast → t.reg .rem = q

/-- R105: `writeDivision` writes the two registers in the order of the parameter. -/
theorem writeDivision_written (s : State) (d : RegName) (q r : Word) :
    DivisionWritten s ((s.writeDivision d q r).advance 3) d q r where
  pc := by rw [State.advance_pc, State.writeDivision_pc]; rfl
  only := (writeDivision_only s d q r).advance 3
  other hd := by
    rw [State.advance_reg, State.advance_reg, State.writeDivision]
    split
    · rw [State.setReg_reg_other _ r hd, State.setReg_reg_same, State.setReg_reg_same]
      exact ⟨rfl, rfl⟩
    · rw [State.setReg_reg_other _ q hd.symm, State.setReg_reg_same, State.setReg_reg_same]
      exact ⟨rfl, rfl⟩
  remainderLast _ horder := by simp [State.writeDivision, horder]
  quotientLast hd horder := by simp [State.writeDivision, horder, hd]

section

variable {s : State} {d r : RegName} {rd rs : Word}

/-- R105: with good registers DIV comes to its quotient. -/
theorem exec_div_eq (hd : NamesReg s rd d) (hr : NamesReg s rs r) :
    exec (.div rd rs) s = complete s (s.writeQuotient d (s.reg d).toInt (s.reg r).toInt) := by
  rw [exec, execDiv, checkReg_eq_ok.2 hd, checkReg_eq_ok.2 hr]
  rfl

/-- R109: with a good register DIVI comes to its quotient. -/
theorem exec_divi_eq (imm : Word) (hd : NamesReg s rd d) :
    exec (.divi rd imm) s = complete s (s.writeQuotient d (s.reg d).toInt imm.toInt) := by
  rw [exec, execDivi, checkReg_eq_ok.2 hd]
  rfl

variable {i : Instr} {a b : Int}

/-- R105, R101: a division by a divisor other than 0 whose quotient `Chk` lets through writes quotient and remainder. -/
theorem exec_quotient (h : exec i s = complete s (s.writeQuotient d a b)) (hb : b ≠ 0)
    (hq : s.cfg.overflow = .wrap ∨ (minWord ≤ a.tdiv b ∧ a.tdiv b ≤ maxWord)) :
    ∃ t, exec i s = .next t ∧ DivisionWritten s t d (wordOfInt (a.tdiv b)) (wordOfInt (a.tmod b)) := by
  refine ⟨_, ?_, writeDivision_written s d _ _⟩
  rw [h, State.writeQuotient, divide_eq_ok.2 ⟨hb, chk_eq_ok.2 ⟨rfl, hq⟩, rfl⟩, sub_tdiv_mul]
  rfl

/-- R112: the quotient and the remainder that the machine computes are those of a truncating division. -/
theorem truncatingDivision_tdiv_tmod (a : Int) {b : Int} (hb : b ≠ 0) :
    TruncatingDivision a b (a.tdiv b) (a.tmod b) :=
  ⟨(Int.tdiv_mul_add_tmod a b).symm, natAbs_tmod_lt a hb, tmod_sign a b⟩

/-- R105, R109, R185, R189: under the policy `fault`, what a division of register `d` by a word does. -/
theorem divisionResult (hfault : s.cfg.overflow = .fault) {b : Word}
    (h : exec i s = complete s (s.writeQuotient d (s.reg d).toInt b.toInt)) : DivisionResult i s d b.toInt := by
  refine ⟨fun hb => ?_, fun ⟨ha, hb⟩ => ?_, fun hb hne => ?_⟩
  · rw [Raises, h, State.writeQuotient, divide_eq_error.2 (.inl ⟨hb, rfl⟩), wordOfInt_toInt]
    rfl
  · have hchk : chk s.cfg (minWord.tdiv (-1)) = .error ⟨.arithmeticOverflow, wordOfInt (minWord.tdiv (-1))⟩ :=
      chk_eq_error.2 ⟨rfl, hfault, by decide⟩
    rw [Raises, h, State.writeQuotient, ha, hb, divide_eq_error.2 (.inr ⟨by decide, hchk⟩)]
    rfl
  · have hq := tdiv_fits (word_bounds (s.reg d)) hne
    have hr := tmod_fits (word_bounds (s.reg d)) (word_bounds b)
    obtain ⟨t, ht, hwritten⟩ := exec_quotient h hb (.inr hq)
    refine ⟨t, _, _, ht, truncatingDivision_tdiv_tmod _ hb, hwritten.pc, hwritten.only, fun hd => ?_, fun hd ho => ?_,
      fun hd ho => ?_⟩
    · rw [(hwritten.other hd).1, (hwritten.other hd).2]
      exact ⟨toInt_wordOfInt hq.1 hq.2, toInt_wordOfInt hr.1 hr.2⟩
    · rw [hwritten.remainderLast hd ho, toInt_wordOfInt hr.1 hr.2]
    · rw [hwritten.quotientLast hd ho, toInt_wordOfInt hq.1 hq.2]

/-- R112: under the policy `wrap`, `MIN / -1` gives quotient `MIN` and remainder 0. -/
theorem exec_quotient_wrapped (hwrap : s.cfg.overflow = .wrap) (ha : a = minWord) (hb : b = -1)
    (h : exec i s = complete s (s.writeQuotient d a b)) : ∃ t, exec i s = .next t ∧ WrappedMinByMinusOne s t d := by
  subst ha hb
  obtain ⟨t, ht, hwritten⟩ := exec_quotient h (by decide) (.inl hwrap)
  have hq : (wordOfInt (minWord.tdiv (-1))).toInt = minWord := by decide
  have hr : wordOfInt (minWord.tmod (-1)) = 0 := by decide
  rw [hr] at hwritten
  refine ⟨t, ht, hwritten.pc, hwritten.only, fun hd => ?_, hwritten.remainderLast, fun hd ho => ?_⟩
  · rw [(hwritten.other hd).1]
    exact ⟨hq, (hwritten.other hd).2⟩
  · rw [hwritten.quotientLast hd ho, hq]

end

/-- Settles O21: the operand checks come first, and both divisions share their end. -/
theorem divisionFollowsItsRules : Obligations.DivisionFollowsItsRules := by
  refine ⟨⟨fun _ _ => rfl, raisesWhenTruncated .div, ?_, ?_, ?_⟩,
    ⟨fun _ _ => rfl, raisesWhenTruncated .divi, ?_, ?_⟩⟩
  · exact fun s rd rs hbad => complete_badReg hbad _
  · exact fun s rd rs hgood hbad => complete_badReg_second hgood hbad _
  · exact fun s rd rs d r hfault hd hr => divisionResult hfault (exec_div_eq hd hr)
  · exact fun s rd imm hbad => complete_badReg hbad _
  · exact fun s rd imm d hfault hd => divisionResult hfault (exec_divi_eq imm hd)

/-! ### The policy `wrap` -/

section

variable (a b : Word)

/-- R10: the low 64 bits of the sum of two words are their sum modulo 2^64. -/
theorem wordOfInt_add : wordOfInt (a.toInt + b.toInt) = a + b :=
  BitVec.eq_of_toInt_eq (by rw [BitVec.toInt_ofInt, BitVec.toInt_add])

/-- R10: the low 64 bits of the difference of two words. -/
theorem wordOfInt_sub : wordOfInt (a.toInt - b.toInt) = a - b :=
  BitVec.eq_of_toInt_eq (by rw [BitVec.toInt_ofInt, BitVec.toInt_sub])

/-- R10: the low 64 bits of the product of two words. -/
theorem wordOfInt_mul : wordOfInt (a.toInt * b.toInt) = a * b :=
  BitVec.eq_of_toInt_eq (by rw [BitVec.toInt_ofInt, BitVec.toInt_mul])

end

/-- R101: under the policy `wrap` the low 64 bits of the result are written. -/
theorem exec_result_wrapped {s : State} {i : Instr} {d : RegName} {n : Nat} {v : Int} {w : Word}
    (hwrap : s.cfg.overflow = .wrap) (h : exec i s = complete s (s.writeResult d n v)) (hw : wordOfInt v = w) :
    ∃ t, exec i s = .next t ∧ t.reg d = w ∧ t.pc = s.pc + BitVec.ofNat 64 n ∧ OnlyRegs [d] s t :=
  hw ▸ exec_result h (.inl hwrap)

/-- Settles O22: each instruction comes to its shared end, which under `wrap` raises nothing. -/
theorem wrapPolicyResults : Obligations.WrapPolicyResults := by
  intro s rd rs imm d r hwrap hd hr
  refine ⟨?_, ?_, ?_, ?_, ?_, ?_, ?_, ?_, ?_, ?_⟩
  · exact exec_result_wrapped hwrap (congrArg (complete s) (arithReg_eq _ hd hr)) (wordOfInt_add _ _)
  · exact exec_result_wrapped hwrap (congrArg (complete s) (arithReg_eq _ hd hr)) (wordOfInt_sub _ _)
  · exact exec_result_wrapped hwrap (congrArg (complete s) (arithReg_eq _ hd hr)) (wordOfInt_mul _ _)
  · exact exec_result_wrapped hwrap (congrArg (complete s) (arithImm_eq _ imm hd)) (wordOfInt_add _ _)
  · exact exec_result_wrapped hwrap (congrArg (complete s) (arithImm_eq _ imm hd)) (wordOfInt_sub _ _)
  · exact exec_result_wrapped hwrap (congrArg (complete s) (arithImm_eq _ imm hd)) (wordOfInt_mul _ _)
  · exact exec_result_wrapped hwrap (congrArg (complete s) (arithUnary_eq _ hd)) (wordOfInt_add _ 1)
  · exact exec_result_wrapped hwrap (congrArg (complete s) (arithUnary_eq _ hd)) (wordOfInt_sub _ 1)
  · exact fun ha hb => exec_quotient_wrapped hwrap ha hb (exec_div_eq hd hr)
  · exact fun ha hb => exec_quotient_wrapped hwrap ha hb (exec_divi_eq imm hd)

/-! ### The same run under `wrap` -/

/-- The state under the policy `wrap`. -/
def State.underWrap (s : State) : State :=
  { s with cfg := { s.cfg with overflow := .wrap } }

/-- Unless `x` is an overflow, `y` is `x` with its value carried over by `m`. -/
def SameUnlessOverflow {α : Type} (m : α → α) (x y : Except Trap α) : Prop :=
  (∀ info, x ≠ .error ⟨.arithmeticOverflow, info⟩) → y = m <$> x

namespace SameUnlessOverflow

/-- What does not look at the policy is the same under `wrap`. -/
theorem of_eq {α : Type} {m : α → α} {x y : Except Trap α} (h : y = m <$> x) : SameUnlessOverflow m x y :=
  fun _ => h

/-- The law of two computations in a row, from the law of each. -/
theorem bind {α β : Type} {m : α → α} {m' : β → β} {x y : Except Trap α} {f g : α → Except Trap β}
    (h : SameUnlessOverflow m x y) (hf : ∀ a, SameUnlessOverflow m' (f a) (g (m a))) :
    SameUnlessOverflow m' (x >>= f) (y >>= g) := by
  intro hno
  cases x with
  | error e =>
    rw [h fun info he => hno info (by rw [he]; rfl)]
    rfl
  | ok a =>
    rw [h fun _ he => by cases he]
    exact hf a hno

/-- The law of an instruction, from the law of its meaning. -/
theorem complete {s t : State} {x y : Except Trap State} (h : SameUnlessOverflow State.underWrap x y)
    (hx : Machine.complete s x = .next t) (ht : ∀ pc info, t.st ≠ .faulted .arithmeticOverflow pc info) :
    Machine.complete s.underWrap y = .next t.underWrap := by
  obtain rfl | ⟨e, rfl, rfl⟩ := complete_eq_next.1 hx
  · rw [h fun _ he => by cases he]
    rfl
  · rw [h fun info he => ht s.pc info (by cases he; rfl)]
    rfl

end SameUnlessOverflow

section

variable (s : State)

/-- R73: the register check does not look at the policy. -/
theorem checkReg_underWrap (w : Word) : SameUnlessOverflow id (checkReg s.cfg w) (checkReg s.underWrap.cfg w) :=
  .of_eq (by rw [id_map]; rfl)

/-- R101: `Chk` gives the same word under `wrap`, unless it overflows. -/
theorem chk_underWrap (v : Int) : SameUnlessOverflow id (chk s.cfg v) (chk s.underWrap.cfg v) := by
  intro hno
  rw [id_map]
  cases h : chk s.cfg v with
  | ok w => exact chk_eq_ok.2 ⟨(chk_eq_ok.1 h).1, .inl rfl⟩
  | error e => exact absurd ((chk_eq_error.1 h).1 ▸ h) (hno _)

/-- R105, R185: a division by 0 is the same fault, any other the same unless its quotient overflows. -/
theorem divide_underWrap (a b : Int) : SameUnlessOverflow id (divide s.cfg a b) (divide s.underWrap.cfg a b) := by
  unfold divide
  split
  · exact .of_eq rfl
  · exact .bind (chk_underWrap s _) fun q => .of_eq rfl

theorem arithReg_underWrap (f : Int → Int → Int) (rd rs : Word) :
    SameUnlessOverflow State.underWrap (arithReg f rd rs s) (arithReg f rd rs s.underWrap) :=
  .bind (checkReg_underWrap s rd) fun _ => .bind (checkReg_underWrap s rs) fun _ =>
    .bind (chk_underWrap s _) fun _ => .of_eq rfl

theorem arithImm_underWrap (f : Int → Int → Int) (rd imm : Word) :
    SameUnlessOverflow State.underWrap (arithImm f rd imm s) (arithImm f rd imm s.underWrap) :=
  .bind (checkReg_underWrap s rd) fun _ => .bind (chk_underWrap s _) fun _ => .of_eq rfl

theorem arithUnary_underWrap (f : Int → Int) (rd : Word) :
    SameUnlessOverflow State.underWrap (arithUnary f rd s) (arithUnary f rd s.underWrap) :=
  .bind (checkReg_underWrap s rd) fun _ => .bind (chk_underWrap s _) fun _ => .of_eq rfl

/-- Decision D8: nor does the order of a division's writes. -/
theorem writeDivision_underWrap (d : RegName) (q r : Word) :
    s.underWrap.writeDivision d q r = (s.writeDivision d q r).underWrap := by
  unfold State.writeDivision
  rw [show s.underWrap.cfg.divRemOrder = s.cfg.divRemOrder from rfl]
  split <;> rfl

theorem writeQuotient_underWrap (d : RegName) (a b : Int) :
    SameUnlessOverflow State.underWrap (s.writeQuotient d a b) (s.underWrap.writeQuotient d a b) :=
  .bind (divide_underWrap s a b) fun (q, r) =>
    .of_eq (congrArg (fun t : State => Except.ok (t.advance 3)) (writeDivision_underWrap s d q r))

theorem push_underWrap (v : Word) : SameUnlessOverflow State.underWrap (push v s) (push v s.underWrap) := by
  unfold push
  rw [show s.underWrap.stackRoom 1 = s.stackRoom 1 from rfl]
  split <;> exact .of_eq rfl

theorem pop_underWrap : SameUnlessOverflow (Prod.map id State.underWrap) (pop s) (pop s.underWrap) := by
  unfold pop
  rw [show s.underWrap.stack = s.stack from rfl]
  split <;> exact .of_eq rfl

theorem popRegs_underWrap (rs : List RegName) :
    SameUnlessOverflow State.underWrap (popRegs rs s) (popRegs rs s.underWrap) := by
  induction rs generalizing s with
  | nil => exact .of_eq rfl
  | cons r rs ih => exact .bind (pop_underWrap s) fun (v, t) => ih (t.setReg r v)

theorem branch_underWrap (taken : Bool) (a : Word) (n : Nat) :
    s.underWrap.branch taken a n = (s.branch taken a n).underWrap := by
  cases taken <;> rfl

theorem call_underWrap (addr : Word) : SameUnlessOverflow State.underWrap (call addr s) (call addr s.underWrap) := by
  unfold call
  rw [show s.underWrap.stackRoom 13 = s.stackRoom 13 from rfl, show s.underWrap.frameRoom = s.frameRoom from rfl]
  split
  · exact .of_eq rfl
  · split <;> exact .of_eq rfl

theorem ret_underWrap : SameUnlessOverflow State.underWrap (ret s) (ret s.underWrap) := by
  unfold ret
  rw [show s.underWrap.frames = s.frames from rfl, show s.underWrap.sp = s.sp from rfl]
  split
  · exact .of_eq rfl
  · split
    · exact .of_eq rfl
    · exact .bind (pop_underWrap _) fun (_, t) => .bind (popRegs_underWrap t _) fun _ => .of_eq rfl

end

/-- R101: an instruction that does not overflow does the same under `wrap`, because each operation it is made of does. -/
theorem exec_underWrap {i : Instr} {s t : State} (h : exec i s = .next t)
    (ht : ∀ pc info, t.st ≠ .faulted .arithmeticOverflow pc info) : exec i s.underWrap = .next t.underWrap := by
  cases i with
  | add rd rs | sub rd rs | mult rd rs => exact (arithReg_underWrap s _ rd rs).complete h ht
  | addi rd imm | subi rd imm | multi rd imm => exact (arithImm_underWrap s _ rd imm).complete h ht
  | inc rd | dec rd => exact (arithUnary_underWrap s _ rd).complete h ht
  | div rd rs =>
    refine SameUnlessOverflow.complete ?_ h ht
    exact .bind (checkReg_underWrap s rd) fun d => .bind (checkReg_underWrap s rs) fun _ =>
      writeQuotient_underWrap s d _ _
  | divi rd imm =>
    refine SameUnlessOverflow.complete ?_ h ht
    exact .bind (checkReg_underWrap s rd) fun d => writeQuotient_underWrap s d _ _
  | showReg rs | printReg rs =>
    refine SameUnlessOverflow.complete ?_ h ht
    exact .bind (checkReg_underWrap s rs) fun _ => .of_eq rfl
  | set rd imm =>
    refine SameUnlessOverflow.complete ?_ h ht
    exact .bind (checkReg_underWrap s rd) fun _ => .of_eq rfl
  | mov r1 r2 | cmp r1 r2 =>
    refine SameUnlessOverflow.complete ?_ h ht
    exact .bind (checkReg_underWrap s r1) fun _ => .bind (checkReg_underWrap s r2) fun _ => .of_eq rfl
  | push imm =>
    refine SameUnlessOverflow.complete ?_ h ht
    exact .bind (push_underWrap s imm) fun _ => .of_eq rfl
  | pop =>
    refine SameUnlessOverflow.complete ?_ h ht
    exact .bind (pop_underWrap s) fun _ => .of_eq rfl
  | load rs =>
    refine SameUnlessOverflow.complete ?_ h ht
    exact .bind (checkReg_underWrap s rs) fun r => .bind (push_underWrap s (s.reg r)) fun _ => .of_eq rfl
  | store rd =>
    refine SameUnlessOverflow.complete ?_ h ht
    exact .bind (checkReg_underWrap s rd) fun _ => .bind (pop_underWrap s) fun _ => .of_eq rfl
  | jz rs addr | jnz rs addr =>
    refine SameUnlessOverflow.complete ?_ h ht
    exact .bind (checkReg_underWrap s rs) fun _ => .of_eq (congrArg Except.ok (branch_underWrap s _ addr 3))
  | je addr | jne addr | jlt addr | jgt addr =>
    cases h
    exact congrArg Host.Outcome.next (branch_underWrap s _ addr 2)
  | call addr => exact (call_underWrap s addr).complete h ht
  | ret => exact (ret_underWrap s).complete h ht
  | jmp | stop | nop =>
    cases h
    rfl

/-- R101: so does a step; the fetch does not look at the policy. -/
theorem step_underWrap {s t : State} (h : step s = .next t)
    (ht : ∀ pc info, t.st ≠ .faulted .arithmeticOverflow pc info) : step s.underWrap = .next t.underWrap := by
  obtain ⟨hrun, ⟨i, hi, h⟩ | ⟨e, he, rfl⟩⟩ := step_next h
  · rw [step_running_ok (s := s.underWrap) hrun hi]
    exact exec_underWrap h ht
  · exact step_running_error (s := s.underWrap) hrun he

/-- Settles O23, by induction on the number of steps: a state that a further step leaves is running, so no overflow came
before the last step. The premise that the run is under `fault` is not used: under `wrap` it is the same run already. -/
theorem runWithoutOverflowSameUnderWrap : Obligations.RunWithoutOverflowSameUnderWrap := by
  intro k s t _ h ht
  induction k generalizing t with
  | zero =>
    cases h
    rfl
  | succ k ih =>
    obtain ⟨u, hu, hstep⟩ := run_succ_last.1 h
    have hrun : u.st = .running := (step_next hstep).1
    exact run_succ_last.2 ⟨u.underWrap, ih u hu (by simp [hrun]), step_underWrap hstep ht⟩

end Sys2Proof.Machine

/-! PROOFS of spec/41_move_set.md: SET and MOV. With good registers both come to one write of a word to the destination
and `pc` three words on. -/

namespace Sys2Proof.Machine

/-- R121: a copy of `r` leaves `r` as it was, also where it is copied to itself. -/
@[simp] theorem State.setReg_reg_source (s : State) (d r : RegName) : (s.setReg d (s.reg r)).reg r = s.reg r := by
  rw [State.reg_setReg, ite_self]

section

variable {s : State} {rd rs : Word} {d r : RegName}

/-- R120: with a good register SET writes its immediate, whatever the register held. -/
theorem exec_set_eq (imm : Word) (hd : NamesReg s rd d) :
    exec (.set rd imm) s = .next ((s.setReg d imm).advance 3) := by
  rw [exec, execSet, checkReg_eq_ok.2 hd]
  rfl

/-- R121: with good registers MOV writes the word that the source holds. -/
theorem exec_mov_eq (hd : NamesReg s rd d) (hr : NamesReg s rs r) :
    exec (.mov rd rs) s = .next ((s.setReg d (s.reg r)).advance 3) := by
  rw [exec, execMov, checkReg_eq_ok.2 hd, checkReg_eq_ok.2 hr]
  rfl

end

/-- Settles O24: the register check comes first, and what follows is one register write. -/
theorem setFollowsItsRule : Obligations.SetFollowsItsRule := by
  refine ⟨fun _ _ => rfl, raisesWhenTruncated .set, fun s rd imm hbad => ?_, fun s rd imm d hd => ?_⟩
  · exact complete_badReg hbad _
  · exact ⟨_, exec_set_eq imm hd, s.setReg_reg_same d imm, rfl, (setReg_only s d imm).advance 3⟩

/-- Settles O25: the register checks come first, and what follows is one register write. -/
theorem movFollowsItsRule : Obligations.MovFollowsItsRule := by
  refine ⟨fun _ _ => rfl, raisesWhenTruncated .mov, fun s rd rs hbad => ?_, fun s rd rs hgood hbad => ?_,
    fun s rd rs d r hd hr => ?_⟩
  · exact complete_badReg hbad _
  · exact complete_badReg_second hgood hbad _
  · exact ⟨_, exec_mov_eq hd hr, s.setReg_reg_same d _, s.setReg_reg_source d r, rfl,
      (setReg_only s d _).advance 3⟩

end Sys2Proof.Machine

/-! PROOFS of spec/42_stack.md: PUSH, POP, LOAD and STORE, and the LIFO law. PUSH and LOAD share the push, POP and STORE the
pop, so what comes of either is said once: its fault, and its next state. The LIFO law is an induction in which the first
push and the last pop enclose a shorter run of the same shape. -/

namespace Sys2Proof.Machine

section

variable {s : State} {below : List Word} {w v : Word} {r : RegName}

/-! ### The two faults of the stack -/

/-- R13: a stack that holds its limit of words has no room for one more. -/
theorem stackRoom_one_eq_false {limit : Nat} (hlimit : s.cfg.stackLimit = some limit) (hfull : limit ≤ s.stack.length) :
    s.stackRoom 1 = false := by
  rw [← Bool.not_eq_true, stackRoom_iff]
  intro hroom
  have := hroom limit hlimit
  omega

/-- R190: an instruction that pushes onto a full stack raises ResourceExhaustion, whatever comes after. -/
theorem complete_push_full (hfull : s.stackRoom 1 = false) (v : Word) (k : State → Except Trap State) :
    complete s (push v s >>= k) = .next (faultedFrom s .resourceExhaustion (BitVec.ofInt 64 s.sp)) := by
  rw [push_eq_error.2 ⟨hfull, rfl⟩]
  rfl

/-- R182: an instruction that pops the empty stack raises StackUnderflow, whatever comes after. -/
theorem complete_pop_empty (hempty : s.stack = []) (k : Word × State → Except Trap State) :
    complete s (pop s >>= k) = .next (faultedFrom s .stackUnderflow (-1)) := by
  rw [pop_eq_error.2 ⟨hempty, rfl⟩]
  rfl

/-! ### Room to push, a word to pop -/

/-- R130: with room PUSH appends its immediate. -/
theorem exec_push_eq (hroom : RoomFor s 1) (imm : Word) :
    exec (.push imm) s = .next ((s.append [imm]).advance 2) := by
  rw [exec, execPush, push_eq_ok.2 ⟨stackRoom_iff.2 hroom, rfl⟩]
  rfl

/-- R131: POP moves the top word to the output. -/
theorem exec_pop_eq (hstack : s.stack = below ++ [v]) :
    exec .pop s = .next ((State.out { s with stack := below } .num v).advance 1) := by
  rw [exec, execPop, pop_of_append hstack]
  rfl

/-! ### A good register -/

/-- R132: with a good register LOAD comes to the push of its value. -/
theorem exec_load_eq_push (hr : NamesReg s w r) : exec (.load w) s = exec (.push (s.reg r)) s := by
  change execLoad w s = execPush (s.reg r) s
  rw [execLoad, checkReg_eq_ok.2 hr]
  rfl

/-- R133: with a good register STORE comes to a pop. -/
theorem exec_store_eq_pop (hr : NamesReg s w r) :
    exec (.store w) s = complete s (pop s >>= fun p => pure ((p.2.setReg r p.1).advance 2)) := by
  rw [exec, execStore, checkReg_eq_ok.2 hr]
  rfl

/-- R133: with a good register STORE moves the top word to it. -/
theorem exec_store_eq (hr : NamesReg s w r) (hstack : s.stack = below ++ [v]) :
    exec (.store w) s = .next ((State.setReg { s with stack := below } r v).advance 2) := by
  rw [exec_store_eq_pop hr, pop_of_append hstack]
  rfl

end

/-! ### The four instructions -/

/-- Settles O26: there is room for the immediate, or the push raises its fault. -/
theorem pushFollowsItsRule : Obligations.PushFollowsItsRule := by
  refine ⟨fun _ => rfl, raisesWhenTruncated .push, fun s imm limit hlimit hfull => ?_, fun s imm hroom => ?_⟩
  · exact complete_push_full (stackRoom_one_eq_false hlimit hfull) imm _
  · exact exec_push_eq hroom imm

/-- Settles O27: the stack is empty, or its top word goes to the output. -/
theorem popFollowsItsRule : Obligations.PopFollowsItsRule := by
  refine ⟨rfl, fun s hempty => ?_, fun s below v hstack => ?_⟩
  · exact complete_pop_empty hempty _
  · exact exec_pop_eq hstack

/-- Settles O28: the register check comes first, and what follows is PUSH of the register's value. -/
theorem loadFollowsItsRule : Obligations.LoadFollowsItsRule := by
  obtain ⟨-, -, hexhausted, hpush⟩ := pushFollowsItsRule
  refine ⟨fun _ => rfl, raisesWhenTruncated .load, fun s rs hbad => ?_, fun s rs r limit hr hlimit hfull => ?_,
    fun s rs r hr hroom => ?_⟩
  · exact complete_badReg hbad _
  · exact (exec_load_eq_push hr).trans (hexhausted s (s.reg r) limit hlimit hfull)
  · exact (exec_load_eq_push hr).trans (hpush s (s.reg r) hroom)

/-- Settles O29: the register check comes first, and what follows is a pop into the register. -/
theorem storeFollowsItsRule : Obligations.StoreFollowsItsRule := by
  refine ⟨fun _ => rfl, raisesWhenTruncated .store, fun s rd hbad => ?_, fun s rd d hd hempty => ?_,
    fun s rd d below v hd hstack => ?_⟩
  · exact complete_badReg hbad _
  · exact (exec_store_eq_pop hd).trans (complete_pop_empty hempty _)
  · exact ⟨_, exec_store_eq hd hstack, State.setReg_reg_same _ d v, rfl, rfl, (setReg_only _ d v).advance 2⟩

/-! ### The LIFO law -/

/-- Executing a list begins with its first instruction. -/
theorem execAll_cons {i : Instr} {s t : State} (h : exec i s = .next t) (is : List Instr) :
    execAll (i :: is) s = execAll is t := by
  rw [execAll, h]

/-- Executing one list after another goes on from where the first one leads. -/
theorem execAll_append {is : List Instr} {s t : State} (h : execAll is s = .next t) (js : List Instr) :
    execAll (is ++ js) s = execAll js t := by
  induction is generalizing s with
  | nil =>
    cases h
    rfl
  | cons i is ih =>
    cases hi : exec i s with
    | next u =>
      rw [execAll_cons hi] at h
      rw [List.cons_append, execAll_cons hi, ih h]
    | fault e => simp [execAll, hi] at h
    | refused e => simp [execAll, hi] at h

/-- R134: the pushes of `v :: vs` and as many pops are the push of `v`, the same for `vs`, and one pop. -/
theorem pushes_pops_cons (v : Word) (vs : List Word) :
    (v :: vs).map Instr.push ++ List.replicate (v :: vs).length Instr.pop =
      .push v :: (vs.map Instr.push ++ List.replicate vs.length Instr.pop ++ [.pop]) := by
  rw [List.map_cons, List.length_cons, List.replicate_succ', List.cons_append, List.append_assoc]

/-- Settles O30, by induction on the words: the pops of the later words leave the first one on top for the last pop. -/
theorem stackIsLifo : Obligations.StackIsLifo := by
  intro s vs hroom
  induction vs generalizing s with
  | nil => simp [execAll]
  | cons v vs ih =>
    have hroomPush : RoomFor s 1 := fun limit hlimit => by
      have := hroom limit hlimit
      rw [List.length_cons] at this
      omega
    have hroomRest : RoomFor ((s.append [v]).advance 2) vs.length := fun limit hlimit => by
      have := hroom limit hlimit
      simp only [List.length_cons, State.advance_stack, State.append_stack, List.length_append,
        List.length_nil] at this ⊢
      omega
    have hpc : s.pc + BitVec.ofNat 64 2 + BitVec.ofNat 64 (3 * vs.length) + BitVec.ofNat 64 1 =
        s.pc + BitVec.ofNat 64 (3 * (v :: vs).length) := by
      rw [BitVec.add_assoc, BitVec.add_assoc, ← BitVec.ofNat_add, ← BitVec.ofNat_add, List.length_cons]
      congr 2
      omega
    rw [pushes_pops_cons, execAll_cons (exec_push_eq hroomPush v), execAll_append (ih _ hroomRest),
      execAll_cons (exec_pop_eq (below := s.stack) rfl), execAll, ← hpc]
    simp [State.append, State.advance, State.out]

end Sys2Proof.Machine

/-! PROOFS of spec/43_control_flow.md: the jumps and the compare. Every conditional jump is a branch on the exact test of a
word, JZ and JNZ on their register's and the flag-conditional jumps on the flag's, so the signed meaning of the four tests
(`FlagCond.Holds`) and the two ends of a branch are said once. -/

namespace Sys2Proof

/-- What a condition asks of the signed value of the word it tests (R149). -/
def FlagCond.Holds (c : FlagCond) (f : Int) : Prop :=
  match c with
  | .equal => f = 0
  | .notEqual => f ≠ 0
  | .less => f = -1
  | .greater => f = 1

/-- The jump on each condition (R149). -/
def FlagCond.jumpTo (c : FlagCond) : Word → Instr :=
  match c with
  | .equal => .je
  | .notEqual => .jne
  | .less => .jlt
  | .greater => .jgt

end Sys2Proof

namespace Sys2Proof.Machine

/-! ### The tests and the branch -/

/-- Equality of words is equality of their signed values. -/
theorem word_beq_iff_toInt_eq (v w : Word) : (v == w) = true ↔ v.toInt = w.toInt := by
  rw [beq_iff_eq, BitVec.toInt_inj]

/-- R149: the exact tests are tests of the signed value. -/
theorem exactTest_iff (c : FlagCond) (w : Word) : exactTest c w = true ↔ c.Holds w.toInt := by
  cases c with
  | equal => exact word_beq_iff_toInt_eq w 0
  | notEqual => exact bne_iff_ne.trans (BitVec.toInt_ne.symm)
  | less => exact word_beq_iff_toInt_eq w (-1)
  | greater => exact word_beq_iff_toInt_eq w 1

section

variable {s : State} {c : FlagCond} {w : Word}

/-- R141 to R147: a branch whose test holds changes `pc` to the target and nothing else (R148). -/
theorem branch_taken (h : c.Holds w.toInt) (addr : Word) (n : Nat) :
    s.branch (exactTest c w) addr n = { s with pc := addr } := by
  rw [(exactTest_iff c w).2 h]
  rfl

/-- R141 to R147: a branch whose test fails moves `pc` past the instruction and changes nothing else. -/
theorem branch_untaken (h : ¬ c.Holds w.toInt) (addr : Word) (n : Nat) :
    s.branch (exactTest c w) addr n = { s with pc := s.pc + BitVec.ofNat 64 n } := by
  rw [Bool.eq_false_iff.2 (mt (exactTest_iff c w).1 h)]
  rfl

/-- A branch leads to its target or past the instruction, whatever decides it. -/
theorem branch_cases (s : State) (taken : Bool) (addr : Word) (n : Nat) :
    s.branch taken addr n = { s with pc := addr } ∨
      s.branch taken addr n = { s with pc := s.pc + BitVec.ofNat 64 n } := by
  cases taken
  · exact .inr rfl
  · exact .inl rfl

/-- Where the target is not the next instruction, the branch is taken exactly when its test holds. -/
theorem branch_eq_target_iff {addr : Word} {n : Nat} (haddr : addr ≠ s.pc + BitVec.ofNat 64 n) :
    s.branch (exactTest c w) addr n = { s with pc := addr } ↔ c.Holds w.toInt := by
  refine ⟨fun h => by_contra fun hnot => haddr ?_, fun h => branch_taken h addr n⟩
  rw [branch_untaken hnot] at h
  exact (congrArg State.pc h).symm

end

/-! ### JMP, JZ and JNZ -/

/-- Settles O31: JMP is one assignment to `pc`, which no check precedes. -/
theorem jmpFollowsItsRule : Obligations.JmpFollowsItsRule :=
  ⟨fun _ => rfl, raisesWhenTruncated .jmp, fun _ _ => rfl⟩

section

variable {s : State} {w : Word} {r : RegName}

/-- R141: with a good register JZ branches on the test for zero. -/
theorem exec_jz_eq (addr : Word) (hr : NamesReg s w r) :
    exec (.jz w addr) s = .next (s.branch (exactTest .equal (s.reg r)) addr 3) := by
  rw [exec, execJz, checkReg_eq_ok.2 hr]
  rfl

/-- R142: with a good register JNZ branches on the opposite test. -/
theorem exec_jnz_eq (addr : Word) (hr : NamesReg s w r) :
    exec (.jnz w addr) s = .next (s.branch (exactTest .notEqual (s.reg r)) addr 3) := by
  rw [exec, execJnz, checkReg_eq_ok.2 hr]
  rfl

end

/-- Settles O32: the register check comes first, and what follows is a branch on the register's value. -/
theorem jzJnzFollowTheirRules : Obligations.JzJnzFollowTheirRules := by
  refine ⟨⟨fun _ _ => rfl, raisesWhenTruncated .jz, fun s rs addr hbad => complete_badReg hbad _,
      fun s rs addr r hr hzero => ?_, fun s rs addr r hr hnonzero => ?_⟩,
    fun _ _ => rfl, raisesWhenTruncated .jnz, fun s rs addr hbad => complete_badReg hbad _,
      fun s rs addr r hr hnonzero => ?_, fun s rs addr r hr hzero => ?_⟩
  · rw [exec_jz_eq addr hr, branch_taken (c := .equal) hzero]
  · rw [exec_jz_eq addr hr, branch_untaken (c := .equal) hnonzero]
    rfl
  · rw [exec_jnz_eq addr hr, branch_taken (c := .notEqual) hnonzero]
  · rw [exec_jnz_eq addr hr, branch_untaken (c := .notEqual) (not_not_intro hzero)]
    rfl

/-! ### CMP -/

/-- R143: with good registers CMP writes the comparison of their old values to CMPF. -/
theorem exec_cmp_eq {s : State} {r1 r2 : Word} {a b : RegName} (ha : NamesReg s r1 a) (hb : NamesReg s r2 b) :
    exec (.cmp r1 r2) s = .next ((s.setReg .cmpf (compareFlag (s.reg a) (s.reg b))).advance 3) := by
  rw [exec, execCmp, checkReg_eq_ok.2 ha, checkReg_eq_ok.2 hb]
  rfl

/-- R143: each value of the flag stands for one outcome of the signed comparison. -/
theorem compareFlag_toInt_iff (a b : Word) :
    ((compareFlag a b).toInt = -1 ↔ a.toInt < b.toInt) ∧ ((compareFlag a b).toInt = 0 ↔ a.toInt = b.toInt) ∧
      ((compareFlag a b).toInt = 1 ↔ b.toInt < a.toInt) := by
  obtain ⟨h, hflag⟩ | ⟨h, hflag⟩ | ⟨h, hflag⟩ := compareFlag_cases a b <;> simp [hflag] <;> omega

/-- R25: CMP writes one of the three values on which the tests are exact. -/
theorem isCompareValue_compareFlag (a b : Word) : isCompareValue (compareFlag a b) = true := by
  obtain ⟨-, hflag⟩ | ⟨-, hflag⟩ | ⟨-, hflag⟩ := compareFlag_cases a b <;> rw [hflag] <;> rfl

/-- Settles O33: the register checks come first, and what follows is one write to CMPF. -/
theorem cmpFollowsItsRule : Obligations.CmpFollowsItsRule := by
  refine ⟨fun _ _ => rfl, raisesWhenTruncated .cmp, fun s r1 r2 hbad => ?_, fun s r1 r2 hgood hbad => ?_,
    fun s r1 r2 a b ha hb => ?_⟩
  · exact complete_badReg hbad _
  · exact complete_badReg_second hgood hbad _
  · obtain ⟨hlt, heq, hgt⟩ := compareFlag_toInt_iff (s.reg a) (s.reg b)
    exact ⟨_, exec_cmp_eq ha hb, rfl, (setReg_only s .cmpf _).advance 3, hlt.2, heq.2, hgt.2⟩

/-! ### The flag-conditional jumps -/

/-- R144 to R147: the meaning of each of the four jumps. -/
theorem exec_jumpTo (c : FlagCond) (addr : Word) (s : State) :
    exec (c.jumpTo addr) s = .next (flagJump c addr s) := by
  cases c <;> rfl

/-- R149: under `FLAG_TEST = exact` the jump is a branch on the exact test of the flag. -/
theorem exec_jumpTo_of_exact {s : State} (h : s.cfg.flagTest = .exact) (c : FlagCond) (addr : Word) :
    exec (c.jumpTo addr) s = .next (s.branch (exactTest c (s.reg .cmpf)) addr 2) := by
  rw [exec_jumpTo, flagJump, flagTaken, h]

/-- R149: on a value that CMP writes it is that branch under either setting. -/
theorem exec_jumpTo_of_compareValue {s : State} {flag : Word} (hflag : s.reg .cmpf = flag)
    (h : isCompareValue flag = true) (c : FlagCond) (addr : Word) :
    exec (c.jumpTo addr) s = .next (s.branch (exactTest c flag) addr 2) := by
  rw [exec_jumpTo, flagJump, hflag, flagTaken_of_compareValue h]

/-- R149, decision D26: whatever the flag and the setting, the jump leads to its target or past its operand. -/
theorem exec_jumpTo_cases (addr : Word) (s : State) (c : FlagCond) :
    exec (c.jumpTo addr) s = .next { s with pc := addr } ∨
      exec (c.jumpTo addr) s = .next { s with pc := s.pc + 2 } := by
  rw [exec_jumpTo]
  exact (branch_cases s _ addr 2).imp (congrArg _) (congrArg _)

/-- A jump on condition `c`, encoded with opcode `op`, follows the rule of its test. -/
theorem flagJumpRule (c : FlagCond) {op : Word}
    (henc : ∀ addr, encode opcodeTable (c.jumpTo addr) = [op, addr]) (htrunc : RaisesWhenTruncated op 2) :
    FlagJumpRule c.jumpTo op c.Holds := by
  refine ⟨henc, htrunc, fun s addr hexact h => ?_, fun s addr hexact h => ?_⟩
  · rw [exec_jumpTo_of_exact hexact, branch_taken h]
  · rw [exec_jumpTo_of_exact hexact, branch_untaken h]
    rfl

/-- Settles O34: the four jumps are one rule on the four conditions. -/
theorem flagJumpsFollowTheirRules : Obligations.FlagJumpsFollowTheirRules :=
  ⟨flagJumpRule .equal (fun _ => rfl) (raisesWhenTruncated .je),
    flagJumpRule .notEqual (fun _ => rfl) (raisesWhenTruncated .jne),
    flagJumpRule .less (fun _ => rfl) (raisesWhenTruncated .jlt),
    flagJumpRule .greater (fun _ => rfl) (raisesWhenTruncated .jgt)⟩

/-- Settles O35: on -1, 0 and 1 the open test is the exact one, which computes; elsewhere the jump is still a branch. -/
theorem flagJumpsWithOpenTest : Obligations.FlagJumpsWithOpenTest := by
  intro s addr _
  have hvalue {flag : Word} (hflag : (s.reg .cmpf).toInt = flag.toInt) (h : isCompareValue flag = true)
      (c : FlagCond) := exec_jumpTo_of_compareValue (BitVec.eq_of_toInt_eq hflag) h c addr
  have hany := exec_jumpTo_cases addr s
  refine ⟨fun h => ?_, fun h => ?_, fun h => ?_, ?_⟩
  · have hjump := hvalue (flag := -1) h rfl
    exact ⟨hjump .less, hjump .notEqual, hjump .equal, hjump .greater⟩
  · have hjump := hvalue (flag := 0) h rfl
    exact ⟨hjump .equal, hjump .notEqual, hjump .less, hjump .greater⟩
  · have hjump := hvalue (flag := 1) h rfl
    exact ⟨hjump .greater, hjump .notEqual, hjump .equal, hjump .less⟩
  · simp only [List.forall_mem_cons]
    exact ⟨hany .equal, hany .notEqual, hany .less, hany .greater, List.forall_mem_nil _⟩

/-- R149: after a CMP, whatever the parameters, a jump elsewhere than past itself is taken exactly when its condition holds of
the comparison. -/
theorem exec_jumpTo_after_cmp {s t : State} {r1 r2 addr : Word} {a b : RegName} (ha : NamesReg s r1 a)
    (hb : NamesReg s r2 b) (h : exec (.cmp r1 r2) s = .next t) (haddr : addr ≠ t.pc + 2) (c : FlagCond) :
    exec (c.jumpTo addr) t = .next { t with pc := addr } ↔
      c.Holds (compareFlag (s.reg a) (s.reg b)).toInt := by
  have hflag : t.reg .cmpf = compareFlag (s.reg a) (s.reg b) := by
    rw [exec_cmp_eq ha hb] at h
    cases h
    exact s.setReg_reg_same .cmpf _
  rw [exec_jumpTo_of_compareValue hflag (isCompareValue_compareFlag _ _), Host.Outcome.next.injEq]
  exact branch_eq_target_iff haddr

/-- Settles O36: each condition, read on the value that CMP wrote, is one outcome of the signed comparison. -/
theorem compareTakesExactlyOneBranch : Obligations.CompareTakesExactlyOneBranch := by
  intro s t r1 r2 addr a b ha hb _ hcmp haddr
  have hjump := exec_jumpTo_after_cmp ha hb hcmp haddr
  obtain ⟨hlt, heq, hgt⟩ := compareFlag_toInt_iff (s.reg a) (s.reg b)
  exact ⟨(hjump .less).trans hlt, (hjump .equal).trans heq, (hjump .greater).trans hgt,
    (hjump .notEqual).trans (hjump .equal).not.symm⟩

end Sys2Proof.Machine

/-! PROOFS of spec/44_call_return.md: CALL and RET, and what a RET restores. Both rules are read off one equation per
instruction, with the frame's words at the positions of `savedRegs`. That the frame outlives the callee rests on the stack
changing at its top alone: of the stacks before and after a step one begins with the other. -/

namespace Sys2Proof.Machine

/-! ### The saved registers -/

/-- R160: CALL saves no register twice. -/
theorem savedRegs_nodup : savedRegs.Nodup := by
  decide

/-- R161: R1 to R10 are saved in the first ten words of a frame. -/
theorem savedRegs_gpr : ∀ k : Fin 16, k.val < 10 → savedRegs[k.val]? = some (.gpr k) := by
  decide

/-- R160: R11 to R16 are not saved. -/
theorem gpr_notMem_savedRegs : ∀ k : Fin 16, 10 ≤ k.val → RegName.gpr k ∉ savedRegs := by
  decide

/-! ### CALL -/

section

variable {s : State} {i : Nat} {r : RegName}

/-- R161: a frame holds the saved registers from its first word on. -/
theorem frameWords_saved (h : savedRegs[i]? = some r) : s.frameWords[i]? = some (s.reg r) := by
  have hlt : i < (savedRegs.map s.reg).length := by
    rw [List.length_map]
    exact (List.getElem?_eq_some_iff.1 h).1
  rw [State.frameWords, List.getElem?_append_left hlt, List.getElem?_map, h, Option.map_some]

/-- R161: the return address is the last of the 13 words. -/
theorem frameWords_returnAddress (s : State) : s.frameWords[12]? = some s.returnAddress := rfl

/-- R160: with room for its words and its entry CALL pushes the frame and goes to its target. -/
theorem exec_call_eq (hstack : s.stackRoom 13 = true) (hframe : s.frameRoom = true) (addr : Word) :
    exec (.call addr) s = .next { s with
      stack := s.stack ++ s.frameWords
      frames := s.frames ++ [(s.append s.frameWords).sp]
      pc := addr } := by
  rw [exec, execCall, call_eq_ok.2 ⟨hstack, hframe, rfl⟩, complete_ok]

/-- R190, decision D29: without room for the words or the entry CALL raises ResourceExhaustion. -/
theorem exec_call_exhausted (h : s.stackRoom 13 = false ∨ s.frameRoom = false) (addr : Word) :
    Raises (.call addr) s .resourceExhaustion (BitVec.ofInt 64 s.sp) := by
  rw [Raises, exec, execCall, call_eq_error.2 ⟨h, rfl⟩]
  rfl

/-- R160: a CALL that leaves the machine running found room. -/
theorem call_room_of_running {t : State} {addr : Word} (h : exec (.call addr) s = .next t) (hrun : t.st = .running) :
    s.stackRoom 13 = true ∧ s.frameRoom = true := by
  obtain h | ⟨e, -, rfl⟩ := complete_eq_next.1 h
  · obtain ⟨hstack, hframe, -⟩ := call_eq_ok.1 h
    exact ⟨hstack, hframe⟩
  · cases hrun

end

/-- Settles O37: one of the limits is exceeded, or each word of the frame stands at its place above the old stack. -/
theorem callFollowsItsRule : Obligations.CallFollowsItsRule := by
  refine ⟨fun _ => rfl, raisesWhenTruncated .call, fun s addr limit hlimit hfull => ?_,
    fun s addr limit hlimit hfull => ?_, fun s addr hstack hframe => ?_⟩
  · refine exec_call_exhausted (.inl (Bool.eq_false_iff.2 fun hroom => ?_)) addr
    exact absurd (stackRoom_iff.1 hroom limit hlimit) (by omega)
  · refine exec_call_exhausted (.inr (Bool.eq_false_iff.2 fun hroom => ?_)) addr
    exact absurd (frameRoom_iff.1 hroom limit hlimit) (by omega)
  · have hword (i : Nat) : (s.stack ++ s.frameWords)[s.stack.length + i]? = s.frameWords[i]? := by
      rw [List.getElem?_append_right (Nat.le_add_right _ _), Nat.add_sub_cancel_left]
    have hsp : (s.append s.frameWords).sp = s.sp + 13 := by
      simp only [State.sp, State.append_stack, List.length_append, State.frameWords_length]
      omega
    have hra : (s.stack ++ s.frameWords)[s.stack.length + 12]? = some s.returnAddress :=
      (hword 12).trans (frameWords_returnAddress s)
    refine ⟨_, exec_call_eq (stackRoom_iff.2 hstack) (frameRoom_iff.2 hframe) addr, rfl, rfl, rfl, rfl, rfl, rfl, rfl, hsp,
      List.take_left, fun k hk => ?_, ?_, ?_, fun h => ?_, fun h => ?_⟩
    · exact (hword k).trans (frameWords_saved (savedRegs_gpr k hk))
    · exact (hword 10).trans (frameWords_saved rfl)
    · exact (hword 11).trans (frameWords_saved rfl)
    · rw [hra, State.returnAddress, h]
    · rw [hra, State.returnAddress, h]

/-! ### RET -/

/-- R162: the registers after the saved words of a frame, given in the order of `savedRegs`, were popped into them. -/
def RegFile.restore (x : RegFile) (ws : List Word) : RegFile :=
  (savedRegs.zip ws).reverse.foldl (fun y p => y.put p.1 p.2) x

/-- A register that none of the writes names keeps its value. -/
theorem RegFile.get_foldl_put_of_notMem {ps : List (RegName × Word)} {r : RegName} (h : r ∉ ps.map Prod.fst)
    (x : RegFile) : (ps.foldl (fun y p => y.put p.1 p.2) x).get r = x.get r := by
  induction ps generalizing x with
  | nil => rfl
  | cons p ps ih =>
    rw [List.map_cons, List.mem_cons, not_or] at h
    rw [List.foldl_cons, ih h.2, RegFile.get_put_other x p.2 h.1]

/-- A register that one of the writes names, and no other, reads as that write's word. -/
theorem RegFile.get_foldl_put_of_mem {ps : List (RegName × Word)} {r : RegName} {w : Word}
    (hnodup : (ps.map Prod.fst).Nodup) (h : (r, w) ∈ ps) (x : RegFile) :
    (ps.foldl (fun y p => y.put p.1 p.2) x).get r = w := by
  induction ps generalizing x with
  | nil => cases h
  | cons p ps ih =>
    obtain ⟨hp, hnodup⟩ := List.nodup_cons.1 hnodup
    obtain rfl | h := List.mem_cons.1 h
    · rw [List.foldl_cons, RegFile.get_foldl_put_of_notMem hp, RegFile.get_put_same]
    · exact ih hnodup h _

section

variable {ws : List Word} {r : RegName}

/-- R162: a restore writes the registers in the reverse of the order in which they were saved. -/
theorem map_fst_savedRegs_zip (hlen : ws.length = 12) :
    (savedRegs.zip ws).reverse.map Prod.fst = savedRegs.reverse := by
  rw [List.map_reverse, List.map_fst_zip (by rw [hlen]; exact le_rfl)]

/-- R162: a saved register gets the word at its place. -/
theorem RegFile.get_restore_of_saved {i : Nat} {w : Word} (hlen : ws.length = 12) (hr : savedRegs[i]? = some r)
    (hw : ws[i]? = some w) (x : RegFile) : (x.restore ws).get r = w := by
  refine RegFile.get_foldl_put_of_mem ?_ (List.mem_reverse.2 ?_) x
  · rw [map_fst_savedRegs_zip hlen, List.nodup_reverse]
    exact savedRegs_nodup
  · exact List.mem_of_getElem? (List.getElem?_zip_eq_some.2 ⟨hr, hw⟩)

/-- R162: a register that is not saved is not restored. -/
theorem RegFile.get_restore_of_notMem (hlen : ws.length = 12) (hr : r ∉ savedRegs) (x : RegFile) :
    (x.restore ws).get r = x.get r :=
  RegFile.get_foldl_put_of_notMem (by rwa [map_fst_savedRegs_zip hlen, List.mem_reverse]) x

end

/-- R161: the words at the places of the saved registers in a frame that begins at `b`. -/
def State.savedWords (s : State) (b : Nat) : List Word :=
  (s.stack.drop b).take 12

section

variable {s : State} {older : List Int} {b : Nat}

theorem State.savedWords_length (h : b + 12 < s.stack.length) : (s.savedWords b).length = 12 := by
  rw [State.savedWords, List.length_take, List.length_drop]
  omega

theorem State.savedWords_getElem? {i : Nat} (hi : i < 12) : (s.savedWords b)[i]? = s.stack[b + i]? := by
  rw [State.savedWords, List.getElem?_take_of_lt hi, List.getElem?_drop]

/-- R162: RET on a frame that begins at `b` pops the return address at `b + 12` and the saved registers below it. -/
theorem exec_ret_eq {ra : Word} (hframes : s.frames = older ++ [((b + 12 : Nat) : Int)])
    (hra : s.stack[b + 12]? = some ra) :
    exec .ret s = .next { s with
      frames := older
      stack := s.stack.take b
      regs := s.regs.restore (s.savedWords b)
      pc := resumeAt s.cfg ra } := by
  obtain ⟨hlt, -⟩ := List.getElem?_eq_some_iff.1 hra
  have hlen := State.savedWords_length hlt
  have htake : s.stack.take (((b + 12 : Nat) : Int) + 1).toNat =
      s.stack.take b ++ (s.savedWords b).reverse.reverse ++ [ra] := by
    rw [show (((b + 12 : Nat) : Int) + 1).toNat = b + 12 + 1 by omega, List.take_add_one, hra, List.take_add,
      List.reverse_reverse, Option.toList_some, State.savedWords]
  have hzip : savedRegs.reverse.zip (s.savedWords b).reverse = (savedRegs.zip (s.savedWords b)).reverse :=
    (List.reverse_zipWith (by rw [hlen]; rfl)).symm
  rw [exec, execRet, ret_eq hframes (by rw [State.sp]; omega) htake (by rw [List.length_reverse, hlen]), complete_ok, hzip]
  rfl

/-- R183: RET without an entry in the frame list fails. -/
theorem ret_of_frames_nil (h : s.frames = []) : ret s = .error ⟨.callStackUnderflow, 0⟩ := by
  rw [ret, h]
  rfl

/-- R182: RET with `sp` below its frame pointer fails. -/
theorem ret_of_sp_lt {f : Int} (hframes : s.frames = older ++ [f]) (hsp : s.sp < f) : ret s = .error (underflow s) := by
  rw [ret, hframes, List.getLast?_concat]
  exact if_pos hsp

/-- R162: the word at the place of a saved register is the one it is restored to. -/
theorem stack_eq_restored {i : Nat} {r : RegName} (hlt : b + 12 < s.stack.length) (hi : i < 12)
    (hr : savedRegs[i]? = some r) : s.stack[b + i]? = some ((s.regs.restore (s.savedWords b)).get r) := by
  have hw : (s.savedWords b)[i]? = some (s.stack[b + i]'(by omega)) := by
    rw [State.savedWords_getElem? hi, List.getElem?_eq_getElem]
  rw [RegFile.get_restore_of_saved (State.savedWords_length hlt) hr hw, List.getElem?_eq_getElem]

end

/-- Settles O38: there is no frame, the stack ends below it, or each of its words returns to the register of its place. -/
theorem retFollowsItsRule : Obligations.RetFollowsItsRule := by
  refine ⟨rfl, fun s hempty => ?_, fun s older f hframes hsp => ?_, fun s older f hframes hdeep hsp => ?_⟩
  · rw [Raises, exec, execRet, ret_of_frames_nil hempty]
    rfl
  · rw [Raises, exec, execRet, ret_of_sp_lt hframes hsp]
    rfl
  · obtain ⟨b, rfl⟩ := Nat.exists_eq_add_of_le' hdeep
    have hlt : b + 12 < s.stack.length := by
      rw [State.sp] at hsp
      omega
    have hra := List.getElem?_eq_getElem hlt
    refine ⟨_, _, exec_ret_eq hframes hra, hra, fun h => resumeAt_two h _, fun h hmax => resumeAt_one h hmax,
      stack_eq_restored (i := 11) hlt (by omega) rfl, stack_eq_restored (i := 10) hlt (by omega) rfl, fun k hk => ?_,
      fun k hk => ?_, rfl, rfl, rfl, rfl, rfl, rfl⟩
    · exact stack_eq_restored hlt (by omega) (savedRegs_gpr k hk)
    · exact RegFile.get_restore_of_notMem (State.savedWords_length hlt) (gpr_notMem_savedRegs k hk) s.regs

/-! ### The frame outlives the callee -/

/-- R52: the stack changes at its top alone: an instruction only adds words or only takes words off. -/
theorem Effect.stack_prefix {s t : State} {i : Instr} (h : Effect s i t) : s.stack <+: t.stack ∨ t.stack <+: s.stack := by
  cases h with
  | registers h => exact .inl (h.stack ▸ List.prefix_rfl)
  | event | halted => exact .inl List.prefix_rfl
  | pushed v n room => exact .inl (List.prefix_append s.stack [v])
  | popped n h | stored d n h => exact .inr (h ▸ List.prefix_append _ _)
  | called h =>
    obtain ⟨-, -, rfl⟩ := call_eq_ok.1 h
    exact .inl (List.prefix_append s.stack s.frameWords)
  | returned h =>
    obtain ⟨⟨n, hn⟩, -⟩ := ret_ok h
    exact .inr (hn ▸ List.take_prefix n s.stack)

/-- R165: a step that leaves `sp` at the top of the words `base` or above keeps them. -/
theorem step_keeps_base {s t : State} {base : List Word} (h : step s = .next t) (hbase : base <+: s.stack)
    (hlen : base.length ≤ t.stack.length) : base <+: t.stack := by
  obtain ⟨-, ⟨e, rfl⟩ | ⟨i, -, heff⟩⟩ := step_effect h
  · exact hbase
  · obtain hgrow | hshrink := heff.stack_prefix
    · exact hbase.trans hgrow
    · exact List.prefix_of_prefix_length_le hbase hshrink hlen

/-- R165: words that `sp` never falls below during a run stay as they are. -/
theorem run_keeps_stack {k : Nat} {s t : State} (h : run k s = .next t)
    (hsp : ∀ j ≤ k, ∀ u, run j s = .next u → s.sp ≤ u.sp) : s.stack <+: t.stack := by
  induction k generalizing t with
  | zero =>
    cases h
    exact List.prefix_rfl
  | succ k ih =>
    obtain ⟨u, hu, hstep⟩ := run_succ_last.1 h
    have hbase := ih hu fun j hj => hsp j (Nat.le_succ_of_le hj)
    have hlast := hsp (k + 1) le_rfl t h
    refine step_keeps_base hstep hbase ?_
    simp only [State.sp] at hlast
    omega

/-- D10: only the word before `MAX` is followed by `MAX`; the word after `MAX` is `MIN`. -/
theorem toInt_add_one_ne_maxWord {w : Word} (h : w.toInt + 1 ≠ maxWord) : (w + 1).toInt ≠ maxWord := by
  have hbounds := word_bounds w
  rw [BitVec.toInt_add, show (1 : Word).toInt = 1 by decide, Int.bmod_def]
  simp only [minWord, maxWord] at *
  omega

/-- Settles O39: the words that CALL pushed are still there at the end of the run, and the last entry of the frame list is
the CALL's, so RET reads each register where CALL wrote it. -/
theorem retRestoresWhatCallSaved : Obligations.RetRestoresWhatCallSaved := by
  intro s s1 t addr k hcall hrun hk hsp hframes
  obtain ⟨-, -, -, -, hcallRule⟩ := callFollowsItsRule
  obtain ⟨-, -, -, hretRule⟩ := retFollowsItsRule
  obtain ⟨hstack, hframe⟩ := call_room_of_running hcall hrun
  obtain ⟨s2, hcall2, -, -, hcfg, hprog, -, -, hF, hsp1, hbelow, hgpr, hrem, hcmpf, htwo, hone⟩ :=
    hcallRule s addr (stackRoom_iff.1 hstack) (frameRoom_iff.1 hframe)
  obtain rfl : s1 = s2 := Host.Outcome.next.inj (hcall.symm.trans hcall2)
  have hkept := run_keeps_stack hk hsp
  have hpointer : s1.sp = ((s.stack.length + 12 : Nat) : Int) := by
    rw [hsp1, State.sp]
    omega
  obtain ⟨r, ra, hret, hra, hrtwo, hrone, hrcmpf, hrrem, hrgpr, hrkept, hrstack, hrframes, hrcfg, hrprog, hrout, hrst⟩ :=
    hretRule t s.frames (s.stack.length + 12) (by rw [hframes, hF, hpointer]) (by omega) (hpointer ▸ hsp k le_rfl t hk)
  rw [Nat.add_sub_cancel] at hrstack hrgpr
  have hsame {i : Nat} {v w : Word} (hread : t.stack[i]? = some v) (hwritten : s1.stack[i]? = some w) : v = w := by
    obtain ⟨hi, rfl⟩ := List.getElem?_eq_some_iff.1 hwritten
    exact Option.some.inj (hread.symm.trans (List.prefix_iff_getElem?.1 hkept i hi))
  obtain ⟨hprogRun, hcfgRun⟩ := run_prog_cfg hk
  have hbase : s.stack <+: t.stack := (hbelow ▸ List.take_prefix _ _ : s.stack <+: s1.stack).trans hkept
  refine ⟨r, hret, fun j hj => hsame (hrgpr j hj) (hgpr j hj), hsame hrrem hrem, hsame hrcmpf hcmpf,
    hrstack.trans (List.prefix_iff_eq_take.1 hbase).symm, hrframes, fun hpc => ?_, hrkept, hrout, hrst,
    hrprog.trans (hprogRun.trans hprog), hrcfg.trans (hcfgRun.trans hcfg)⟩
  rw [hcfgRun, hcfg] at hrtwo hrone
  cases hoffset : s.cfg.raOffset with
  | two => rw [hrtwo hoffset, hsame hra (htwo hoffset)]
  | one =>
    obtain rfl : ra = s.pc + 1 := hsame hra (hone hoffset)
    rw [hrone hoffset (toInt_add_one_ne_maxWord (hpc hoffset)), BitVec.add_assoc]
    rfl

end Sys2Proof.Machine

/-! PROOFS of spec/45_io_termination.md: SHOW, PRINT, STOP and NOP, and the rendered numeric line. SHOW and PRINT share one
shape, with the kind of the event its parameter. A numeral is its last digit behind the numeral of the tenth part, so its
digits, its value and its leading digit each come by induction on the fuel of `decimalDigits`. -/

namespace Sys2Proof.Machine

/-! ### SHOW and PRINT -/

/-- R170, R171: with a good register SHOW and PRINT append the register's whole word as one event of their kind. -/
theorem complete_out {s : State} {rs : Word} {r : RegName} (hr : NamesReg s rs r) (k : EventKind) :
    complete s (checkReg s.cfg rs >>= fun q => pure ((s.out k (s.reg q)).advance 2)) =
      .next ((s.out k (s.reg r)).advance 2) := by
  rw [checkReg_eq_ok.2 hr]
  rfl

/-- Settles O40: the register check comes first, and what follows is one event. -/
theorem showPrintAppendOneEvent : Obligations.ShowPrintAppendOneEvent := by
  refine ⟨fun _ => ⟨rfl, rfl⟩, raisesWhenTruncated .showReg, raisesWhenTruncated .printReg, fun s rs hbad => ?_,
    fun s rs r hr => ?_⟩
  · exact ⟨complete_badReg hbad _, complete_badReg hbad _⟩
  · exact ⟨complete_out hr .num, complete_out hr .chr⟩

/-! ### STOP and NOP -/

/-- Settles O41: no check precedes the halt. -/
theorem stopHalts : Obligations.StopHalts :=
  ⟨rfl, fun _ => rfl⟩

/-- Settles O42: no check precedes the move of `pc`. -/
theorem nopFollowsItsRule : Obligations.NopFollowsItsRule :=
  ⟨rfl, fun _ => rfl⟩

/-- R213: a running machine that fetches an instruction stands at its opcode word. -/
theorem atOpcode_of_fetch {s : State} {i : Instr} (hrun : s.st = .running) (h : fetch s = .ok i) :
    AtOpcode s (opcodeOf s.cfg.opc i.mnemonic) := by
  obtain ⟨hpc, -, -⟩ := fetch_eq_ok.1 h
  have hword := programWord_of_fetch h
  rw [State.programWord, if_pos hpc] at hword
  exact ⟨hrun, hpc, hword⟩

/-- Settles O48: a fault leaves the machine faulted, and of the completed instructions only STOP changes `st`. -/
theorem onlyStopHalts : Obligations.OnlyStopHalts := by
  intro s t h hhalted
  obtain ⟨hrun, ⟨e, rfl⟩ | ⟨i, hfetch, heffect⟩⟩ := step_effect h
  · cases hhalted
  · obtain hsame | ⟨rfl, rfl⟩ := heffect.st_cases
    · simp [hsame, hrun] at hhalted
    · exact ⟨atOpcode_of_fetch hrun hfetch, rfl⟩

/-! ### The numeric line -/

/-- The number that a list of ASCII digits writes in decimal, most significant first (decision D21). -/
def decimalValue (digits : List Byte) : Nat :=
  digits.foldl (fun n b => 10 * n + (b.toNat - 48)) 0

/-- The value of a numeral with one more digit at its end. -/
theorem decimalValue_append_singleton (digits : List Byte) (b : Byte) :
    decimalValue (digits ++ [b]) = 10 * decimalValue digits + (b.toNat - 48) :=
  List.foldl_concat ..

/-- The ASCII code of a decimal digit fits in a byte. -/
@[simp] theorem toNat_asciiDigit (n : Nat) : (BitVec.ofNat 8 (48 + n % 10)).toNat = 48 + n % 10 := by
  rw [BitVec.toNat_ofNat]
  omega

section

variable (fuel : Nat) {n : Nat}

/-- The numeral of a number below ten is one digit. -/
theorem decimalDigits_of_lt (h : n < 10) : decimalDigits (fuel + 1) n = [BitVec.ofNat 8 (48 + n % 10)] := by
  rw [decimalDigits, if_pos h, List.nil_append]

/-- The numeral of a greater number is its last digit behind the numeral of its tenth part. -/
theorem decimalDigits_of_not_lt (h : ¬ n < 10) :
    decimalDigits (fuel + 1) n = decimalDigits fuel (n / 10) ++ [BitVec.ofNat 8 (48 + n % 10)] := by
  rw [decimalDigits, if_neg h]

end

/-- No numeral is empty. -/
theorem decimalDigits_ne_nil (fuel n : Nat) : decimalDigits (fuel + 1) n ≠ [] :=
  List.concat_ne_nil _ _

/-- The bytes of a numeral are ASCII digits. -/
theorem mem_decimalDigits {fuel n : Nat} {b : Byte} (hb : b ∈ decimalDigits fuel n) : 48 ≤ b.toNat ∧ b.toNat ≤ 57 := by
  induction fuel generalizing n with
  | zero => cases hb
  | succ fuel ih =>
    have hlast : b = BitVec.ofNat 8 (48 + n % 10) → 48 ≤ b.toNat ∧ b.toNat ≤ 57 := by
      rintro rfl
      rw [toNat_asciiDigit]
      omega
    by_cases hn : n < 10
    · rw [decimalDigits_of_lt fuel hn, List.mem_singleton] at hb
      exact hlast hb
    · rw [decimalDigits_of_not_lt fuel hn, List.mem_append, List.mem_singleton] at hb
      exact hb.elim ih hlast

/-- The numeral of a number writes that number, where the fuel suffices for its digits. -/
theorem decimalValue_decimalDigits {fuel n : Nat} (hn : n < 10 ^ fuel) : decimalValue (decimalDigits fuel n) = n := by
  induction fuel generalizing n with
  | zero => exact (Nat.lt_one_iff.1 hn).symm
  | succ fuel ih =>
    by_cases h : n < 10
    · rw [decimalDigits_of_lt fuel h, ← List.nil_append [_], decimalValue_append_singleton, toNat_asciiDigit]
      simp only [decimalValue, List.foldl_nil]
      omega
    · rw [decimalDigits_of_not_lt fuel h, decimalValue_append_singleton, ih (by omega), toNat_asciiDigit]
      omega

/-- The numeral of a positive number does not begin with the digit 0. -/
theorem exists_head_decimalDigits {fuel n : Nat} (hpos : 0 < n) (hn : n < 10 ^ fuel) :
    ∃ b, (decimalDigits fuel n).head? = some b ∧ 48 < b.toNat := by
  induction fuel generalizing n with
  | zero => omega
  | succ fuel ih =>
    by_cases h : n < 10
    · rw [decimalDigits_of_lt fuel h]
      refine ⟨_, rfl, ?_⟩
      rw [toNat_asciiDigit]
      omega
    · obtain ⟨b, hb, hlt⟩ := ih (n := n / 10) (by omega) (by omega)
      rw [decimalDigits_of_not_lt fuel h, List.head?_append, hb]
      exact ⟨b, rfl, hlt⟩

/-- Decision D21: a numeral that begins with the digit 0 has no other digit. -/
theorem length_decimalDigits_of_head {fuel n : Nat} (hn : n < 10 ^ (fuel + 1))
    (h : (decimalDigits (fuel + 1) n).head? = some 48) : (decimalDigits (fuel + 1) n).length = 1 := by
  obtain rfl | hpos := Nat.eq_zero_or_pos n
  · rw [decimalDigits_of_lt fuel (by omega), List.length_singleton]
  · obtain ⟨b, hb, hlt⟩ := exists_head_decimalDigits hpos hn
    obtain rfl : b = 48 := Option.some.inj (hb.symm.trans h)
    cases hlt.ne rfl

/-- The fuel of `renderNum` suffices for the magnitude of every word. -/
theorem natAbs_toInt_lt (v : Word) : v.toInt.natAbs < 10 ^ 20 := by
  have hbounds := word_bounds v
  simp only [minWord, maxWord] at hbounds
  omega

/-- Settles O45: the digits are the numeral of the magnitude, for which the fuel of `renderNum` suffices. -/
theorem numericLineIsDecimal : Obligations.NumericLineIsDecimal := by
  intro v
  have hlt := natAbs_toInt_lt v
  exact ⟨decimalDigits 20 v.toInt.natAbs, rfl, fun b => mem_decimalDigits, decimalValue_decimalDigits hlt,
    length_decimalDigits_of_head hlt, decimalDigits_ne_nil 19 _⟩

end Sys2Proof.Machine

/-! PROOFS of spec/60_exceptions.md: which faults are raised, with what record, and that a fault changes nothing but `st`. The
statements over all instructions rest on `FailedCheck`, the few checks that can fail in an instruction: each reason that
`Fails` names is one of them. -/

namespace Sys2Proof.Machine

/-! ### Precise faults -/

/-- Settles O46: a fault is taken in the state the step began in, and a completed instruction has not faulted. -/
theorem faultsArePrecise : Obligations.FaultsArePrecise := by
  intro s t cause pc info h hst
  obtain ⟨hrun, ⟨e, rfl⟩ | ⟨i, -, heffect⟩⟩ := step_effect h
  · cases hst
    rfl
  · obtain hsame | ⟨-, rfl⟩ := heffect.st_cases
    · simp [hsame, hrun] at hst
    · cases hst

/-- R192: an instruction that leads the running machine to a faulted state failed, for a reason that `Fails` names, with the
cause on record. -/
theorem exists_fails_of_faulted {i : Instr} {s t : State} {cause : Cause} {pc info : Word} (hrun : s.st = .running)
    (h : exec i s = .next t) (hst : t.st = .faulted cause pc info) : ∃ e, Fails i s e ∧ e.cause = cause := by
  obtain ⟨e, he, rfl⟩ | h := exec_next h
  · cases hst
    exact ⟨e, he, rfl⟩
  · exact absurd ⟨_, _, _, hst⟩ (h.not_faulted hrun)

/-! ### The checks that fail -/

/-- The checks that raise the trap `e` when `i` executes in `s`: the reasons of `Fails`, sorted by what they depend on; each
reason is one of these by `Fails.failedCheck`. -/
inductive FailedCheck (i : Instr) (s : State) (e : Trap) : Prop
  /-- R184: a register operand word of the instruction is out of range -/
  | register {w : Word} (h : checkReg s.cfg w = .error e) (hw : w ∈ i.regOperands := by simp [Instr.regOperands])
  /-- R189: a result does not pass `Chk` -/
  | result {v : Int} (h : chk s.cfg v = .error e)
  /-- R190: a limit leaves no room -/
  | room (h : (∃ n, s.stackRoom n = false) ∨ s.frameRoom = false) (he : e = exhausted s)
  /-- R182, R183, R185: the divisor is 0, or a word or a frame is missing, which no parameter and no operand word decides -/
  | other (h : e.cause ∈ [Cause.divisionByZero, .stackUnderflow, .callStackUnderflow])

/-- R185, R189: a division fails on the divisor 0 or on its quotient. -/
theorem failedCheck_of_divide {i : Instr} {s : State} {e : Trap} {a b : Int} (h : divide s.cfg a b = .error e) :
    FailedCheck i s e := by
  obtain ⟨-, rfl⟩ | ⟨-, h⟩ := divide_eq_error.1 h
  · exact .other (by simp)
  · exact .result h

/-- R182: a pop fails for want of a word. -/
theorem failedCheck_of_pop {i : Instr} {s : State} {e : Trap} (h : pop s = .error e) : FailedCheck i s e :=
  .other (by simp [pop_error_cause h])

/-- Every reason for which an instruction fails is one of the checks. -/
theorem Fails.failedCheck {i : Instr} {s : State} {e : Trap} (h : Fails i s e) : FailedCheck i s e := by
  cases i with
  | add | sub | mult =>
    obtain h | h | ⟨v, h⟩ := h
    · exact .register h
    · exact .register h
    · exact .result h
  | addi | subi | multi | inc | dec =>
    obtain h | ⟨v, h⟩ := h
    · exact .register h
    · exact .result h
  | div =>
    obtain h | h | ⟨a, b, h⟩ := h
    · exact .register h
    · exact .register h
    · exact failedCheck_of_divide h
  | divi =>
    obtain h | ⟨a, b, h⟩ := h
    · exact .register h
    · exact failedCheck_of_divide h
  | showReg | printReg | set | jz | jnz => exact .register h
  | mov | cmp => obtain h | h := h <;> exact .register h
  | push =>
    obtain ⟨hroom, he⟩ := h
    exact .room (.inl ⟨1, hroom⟩) he
  | pop => exact failedCheck_of_pop h
  | load =>
    obtain h | ⟨hroom, he⟩ := h
    · exact .register h
    · exact .room (.inl ⟨1, hroom⟩) he
  | store =>
    obtain h | h := h
    · exact .register h
    · exact failedCheck_of_pop h
  | call =>
    obtain ⟨hroom, he⟩ := call_eq_error.1 h
    exact .room (hroom.imp_left fun h => ⟨13, h⟩) he
  | ret =>
    obtain ⟨-, rfl⟩ | h := ret_error h
    · exact .other (by simp)
    · exact .other (by simp [h])
  | jmp | je | jne | jlt | jgt | stop | nop => cases h

/-! ### The listed causes -/

namespace FailedCheck

variable {i : Instr} {s : State} {e : Trap}

/-- R190: only a limit raises ResourceExhaustion. -/
theorem no_room (h : FailedCheck i s e) (he : e.cause = .resourceExhaustion) :
    (∃ n, s.stackRoom n = false) ∨ s.frameRoom = false := by
  cases h with
  | register h => simp [checkReg_error_cause h] at he
  | result h => simp [chk_error_cause h] at he
  | room h => exact h
  | other h => simp [he] at h

/-- R189: only the policy `fault` raises ArithmeticOverflow. -/
theorem overflow_fault (h : FailedCheck i s e) (he : e.cause = .arithmeticOverflow) : s.cfg.overflow = .fault := by
  cases h with
  | register h => simp [checkReg_error_cause h] at he
  | result h =>
    obtain ⟨-, hfault, -⟩ := chk_eq_error.1 h
    exact hfault
  | room _ h => simp [h, exhausted] at he
  | other h => simp [he] at h

/-- R184: only a register operand word out of range raises InvalidRegister. -/
theorem exists_badReg (h : FailedCheck i s e) (he : e.cause = .invalidRegister) : ∃ w ∈ i.regOperands, BadReg w := by
  cases h with
  | register h hw => exact ⟨_, hw, (checkReg_eq_error.1 h).1⟩
  | result h => simp [chk_error_cause h] at he
  | room _ h => simp [h, exhausted] at he
  | other h => simp [he] at h

end FailedCheck

/-- R8: with both limits unbounded there is always room. -/
theorem room_of_unbounded {s : State} (hstack : s.cfg.stackLimit = none) (hframe : s.cfg.frameLimit = none) :
    ¬ ((∃ n, s.stackRoom n = false) ∨ s.frameRoom = false) := by
  simp [State.stackRoom, State.frameRoom, hstack, hframe]

/-- Settles O47: the cause is in the row of R181, and the check that raised it depends on the limits and on the policy. -/
theorem onlyListedCausesAreRaised : Obligations.OnlyListedCausesAreRaised := by
  intro i s t cause pc info hrun h hst
  obtain ⟨e, he, rfl⟩ := exists_fails_of_faulted hrun h hst
  refine ⟨he.cause_mem_possibleCauses, fun hstack hframe hcause => ?_, fun hwrap hcause => ?_⟩
  · exact room_of_unbounded hstack hframe (he.failedCheck.no_room hcause)
  · cases hwrap.symm.trans (he.failedCheck.overflow_fault hcause)

/-! ### The register operands -/

/-- R73: the operand words of a well-formed instruction are in range. -/
theorem not_badReg_of_wellFormed {i : Instr} (h : i.wellFormed = true) : ∀ w ∈ i.regOperands, ¬ BadReg w := by
  intro w hw
  have hindex := List.all_eq_true.1 h w hw
  simp only [isRegIndex, Bool.and_eq_true, decide_eq_true_eq] at hindex
  rw [BadReg]
  omega

section

variable {s : State} {a b w : Word}

/-- R184: an instruction that begins with the check of its one register operand raises InvalidRegister for it. -/
theorem complete_find_badReg_one (h : [a].find? (fun w => decide (BadReg w)) = some w)
    (k : RegName → Except Trap State) :
    complete s (checkReg s.cfg a >>= k) = .next (faultedFrom s .invalidRegister w) := by
  obtain ⟨hbad, rfl⟩ : BadReg a ∧ a = w := by
    simpa only [List.find?_singleton, decide_eq_true_eq, Option.ite_none_right_eq_some, Option.some.injEq] using h
  exact complete_badReg hbad k

/-- R184: an instruction that begins with the checks of its two register operands raises InvalidRegister for the first bad
one. -/
theorem complete_find_badReg_two (h : [a, b].find? (fun w => decide (BadReg w)) = some w)
    (k : RegName → RegName → Except Trap State) :
    complete s (checkReg s.cfg a >>= fun d => checkReg s.cfg b >>= k d) =
      .next (faultedFrom s .invalidRegister w) := by
  by_cases ha : BadReg a
  · rw [List.find?_cons_of_pos (by simpa using ha)] at h
    cases h
    exact complete_badReg ha _
  · rw [List.find?_cons_of_neg (by simpa using ha)] at h
    obtain ⟨d, hd⟩ := exists_checkReg_of_not_badReg (s := s) ha
    rw [hd]
    exact complete_find_badReg_one h (k d)

end

/-- R184: the first register operand word out of range is raised, before anything changes. -/
theorem raises_of_find_badReg {i : Instr} {s : State} {w : Word}
    (h : i.regOperands.find? (fun w => decide (BadReg w)) = some w) : Raises i s .invalidRegister w := by
  cases i with
  | add | sub | mult | div | mov | cmp => exact complete_find_badReg_two h _
  | addi | subi | multi | divi | inc | dec | set => exact complete_find_badReg_one h _
  | showReg | printReg | load | store | jz | jnz => exact complete_find_badReg_one h _
  | push | pop | jmp | je | jne | jlt | jgt | call | ret | stop | nop => cases h

/-- Settles O13: the checks come first, and InvalidRegister comes from them alone. -/
theorem invalidRegisterUniform : Obligations.InvalidRegisterUniform := by
  refine ⟨fun i s w => raises_of_find_badReg, fun i s t hwf hrun h pc info hst => ?_⟩
  obtain ⟨e, he, hcause⟩ := exists_fails_of_faulted hrun h hst
  obtain ⟨w, hw, hbad⟩ := he.failedCheck.exists_badReg hcause
  exact not_badReg_of_wellFormed hwf w hw hbad

/-! ### The fetch outside the program -/

/-- Settles O7: the range check of the fetch fails first, whatever the opcodes are. -/
theorem fetchOutsideProgramRaises : Obligations.FetchOutsideProgramRaises :=
  fun _ hrun hout => step_running_error hrun (fetch_eq_error.2 (.inl ⟨hout, rfl⟩))

/-! ### The fault record -/

/-- R198: exactly a faulted state has a record. -/
theorem State.diagnostic_ne_none_iff (s : State) : s.diagnostic ≠ none ↔ s.Faulted := by
  cases hst : s.st <;> simp [State.diagnostic, State.Faulted, hst]

/-- Settles O49: the codes and the record are read off their definitions. -/
theorem causeCodesAndRecord : Obligations.CauseCodesAndRecord :=
  ⟨rfl, rfl, rfl, rfl, rfl, rfl, rfl, rfl, rfl, fun _ _ _ => rfl, State.diagnostic_ne_none_iff⟩

end Sys2Proof.Machine

/-! PROOFS of spec/70_reset_and_hazards.md: the step function is total exactly where it is defined, and a straight-line
program runs in program order. The latter rests on two facts about the place of an instruction in a concatenation of
encodings: a step that begins there executes it (`HoldsProgram.step_eq_exec`), and if it does not transfer control it leaves
`pc` at the place of the next one (`HoldsProgram.pc_after_straight`). -/

namespace Sys2Proof.Machine

/-! ### The step function -/

/-- R14, R192: the end of an instruction is a next state, its result or the fault. -/
theorem exists_complete (s : State) (r : Except Trap State) : ∃ t, complete s r = .next t := by
  cases r with
  | ok t => exact ⟨t, rfl⟩
  | error e => exact ⟨s.raise e, rfl⟩

/-- Settles O9: the meaning of every instruction is `complete` of a result; where the result is no fault for any operands, it
is the next state. -/
theorem everyInstructionExecutes : Obligations.EveryInstructionExecutes := by
  intro i s
  cases i with
  | jmp | je | jne | jlt | jgt | stop | nop => exact ⟨_, rfl⟩
  | add | sub | mult | div | addi | subi | multi | divi | inc | dec => exact exists_complete s _
  | showReg | printReg | set | mov | push | pop | load | store => exact exists_complete s _
  | jz | jnz | cmp | call | ret => exact exists_complete s _

/-- Settles O8: a running machine takes the fault of the fetch or executes the instruction fetched, and both have a next
state. -/
theorem stepDefinedExactlyWhenRunning : Obligations.StepDefinedExactlyWhenRunning := by
  refine fun s => ⟨fun ⟨t, h⟩ => (step_next h).1, fun hrun => ?_⟩
  cases hf : fetch s with
  | ok i =>
    rw [step_running_ok hrun hf]
    exact everyInstructionExecutes i s
  | error e => exact ⟨s.raise e, step_running_error hrun hf⟩

/-- R70: no words decode to no instruction, so `pc` is in the program where the words at it decode to one. -/
theorem fetch_of_decode {s : State} {i : Instr} (hpc : 0 ≤ s.pc.toInt) (h : decode s.cfg.opc s.wordsAtPc = .ok i) :
    fetch s = .ok i := by
  refine fetch_eq_ok.2 ⟨hpc, ?_, h⟩
  by_contra hout
  have hnil : s.wordsAtPc = [] := List.drop_eq_nil_of_le (by omega)
  rw [hnil] at h
  cases h

/-- Settles O6: the words decide the fetch, and the fetch the step. -/
theorem stepRunsDecodedInstruction : Obligations.StepRunsDecodedInstruction :=
  fun _ _ hrun hpc h => step_running_ok hrun (fetch_of_decode hpc h)

/-! ### The place of an instruction in a concatenation of encodings -/

/-- R219: the index of the `k`-th instruction's opcode word in the concatenation of the instructions' words. -/
def instrIndex (opc : OpcodeMap) (is : List Instr) (k : Nat) : Nat :=
  ((is.take k).flatMap (encode opc)).length

/-- R70: an instruction is encoded in as many words as its format says. -/
@[simp] theorem encode_length (opc : OpcodeMap) (i : Instr) : (encode opc i).length = i.words :=
  operands_length i

section

variable {opc : OpcodeMap} {is : List Instr} {k : Nat} {i : Instr}

/-- R28: the next instruction begins where the words of this one end. -/
theorem instrIndex_succ (h : is[k]? = some i) : instrIndex opc is (k + 1) = instrIndex opc is k + i.words := by
  simp [instrIndex, List.take_add_one, h]

/-- Every place is within the concatenation or at its end. -/
theorem instrIndex_le (opc : OpcodeMap) (is : List Instr) (k : Nat) :
    instrIndex opc is k ≤ (is.flatMap (encode opc)).length := by
  conv_rhs => rw [← List.take_append_drop k is, List.flatMap_append, List.length_append]
  exact Nat.le_add_right _ _

/-- At the place of the `k`-th instruction stand its words. -/
theorem drop_instrIndex (h : is[k]? = some i) :
    (is.flatMap (encode opc)).drop (instrIndex opc is k) =
      encode opc i ++ (is.drop (k + 1)).flatMap (encode opc) := by
  obtain ⟨hk, rfl⟩ := List.getElem?_eq_some_iff.1 h
  have hsplit : is.flatMap (encode opc) = (is.take k).flatMap (encode opc) ++ (is.drop k).flatMap (encode opc) := by
    rw [← List.flatMap_append, List.take_append_drop]
  rw [hsplit, instrIndex, List.drop_left, List.drop_eq_getElem_cons hk, List.flatMap_cons]

end

/-! ### Program order -/

/-- The program of the state is the concatenation of the encodings of the instructions, under an opcode map that tells them
apart and within the bound of R6. -/
structure HoldsProgram (opc : OpcodeMap) (is : List Instr) (s : State) : Prop where
  opc_eq : s.cfg.opc = opc
  injective : opc.Injective
  prog_eq : s.prog = is.flatMap (encode opc)
  bound : (is.flatMap (encode opc)).length < 2 ^ 60

namespace HoldsProgram

variable {opc : OpcodeMap} {is : List Instr} {s t : State} {k : Nat} {i : Instr}

/-- R6, R51: a run keeps the program. -/
theorem after_run (hs : HoldsProgram opc is s) (h : run k s = .next t) : HoldsProgram opc is t := by
  obtain ⟨hprog, hcfg⟩ := run_prog_cfg h
  exact { hs with opc_eq := hcfg ▸ hs.opc_eq, prog_eq := hprog ▸ hs.prog_eq }

/-- R213: with `pc` at the place of the `k`-th instruction, the running machine executes it. -/
theorem step_eq_exec (hs : HoldsProgram opc is s) (hrun : s.st = .running) (hi : is[k]? = some i)
    (hpc : s.pc.toNat = instrIndex opc is k) : step s = exec i s := by
  have hle := instrIndex_le opc is k
  have hbound := hs.bound
  have hint : s.pc.toInt = s.pc.toNat := BitVec.toInt_eq_toNat_of_lt (by omega)
  refine stepRunsDecodedInstruction s i hrun (by omega) ?_
  rw [hint, Int.toNat_natCast, hpc, hs.prog_eq, drop_instrIndex hi, hs.opc_eq]
  exact decode_encode_append hs.injective i _

/-- R28: an instruction that does not transfer control, and does not fault, leaves `pc` at the place of the next one. -/
theorem pc_after_straight (hs : HoldsProgram opc is s) (hstraight : isStraight i = true) (h : exec i s = .next t)
    (hrun : t.st = .running) (hi : is[k]? = some i) (hpc : s.pc.toNat = instrIndex opc is k) :
    t.pc.toNat = instrIndex opc is (k + 1) := by
  obtain ⟨e, -, rfl⟩ | h := exec_next h
  · cases hrun
  · have hle := instrIndex_le opc is (k + 1)
    have hbound := hs.bound
    rw [instrIndex_succ hi, Instr.words] at hle ⊢
    rw [h.pc_of_isStraight hstraight, BitVec.toNat_add, BitVec.toNat_ofNat]
    omega

/-- R219: while the machine runs, `k` steps have brought `pc` to the place of the `k`-th instruction, STOP at the latest. -/
theorem pc_of_run (hs : HoldsProgram opc (is ++ [.stop]) s) (hstart : s.pc = 0) (hstraight : ∀ i ∈ is, isStraight i = true)
    (h : run k s = .next t) (hrun : t.st = .running) :
    k ≤ is.length ∧ t.pc.toNat = instrIndex opc (is ++ [.stop]) k := by
  induction k generalizing t with
  | zero =>
    cases h
    simp [instrIndex, hstart]
  | succ k ih =>
    obtain ⟨u, hu, hstep⟩ := run_succ_last.1 h
    obtain ⟨hurun, -⟩ := step_next hstep
    obtain ⟨hk, hpc⟩ := ih hu hurun
    obtain hk | rfl := hk.lt_or_eq
    · have hi : (is ++ [Instr.stop])[k]? = some is[k] := by
        rw [List.getElem?_append_left hk, List.getElem?_eq_getElem hk]
      rw [(hs.after_run hu).step_eq_exec hurun hi hpc] at hstep
      exact ⟨hk, (hs.after_run hu).pc_after_straight (hstraight _ (List.getElem_mem hk)) hstep hrun hi hpc⟩
    · rw [(hs.after_run hu).step_eq_exec hurun List.getElem?_concat_length hpc] at hstep
      cases hstep
      cases hrun

/-- R219: after `k` steps the running machine executes the `k`-th instruction. -/
theorem step_after_run (hs : HoldsProgram opc (is ++ [.stop]) s) (hstart : s.pc = 0)
    (hstraight : ∀ i ∈ is, isStraight i = true) (h : run k s = .next t) (hrun : t.st = .running)
    (hi : (is ++ [Instr.stop])[k]? = some i) : step t = exec i t :=
  (hs.after_run h).step_eq_exec hrun hi (hs.pc_of_run hstart hstraight h hrun).2

end HoldsProgram

/-- Settles O11: after `k` steps `pc` is at the place of the `k`-th instruction, which the next step executes; after all of
them that is STOP. -/
theorem straightLineProgramOrder : Obligations.StraightLineProgramOrder := by
  intro cfg is hopc hstraight hbound start
  have hs : HoldsProgram cfg.opc (is ++ [.stop]) start := ⟨rfl, hopc, rfl, hbound⟩
  refine ⟨fun k t h hrun => ?_, fun t h hrun => ?_⟩
  · obtain ⟨hk, hpc⟩ := hs.pc_of_run rfl hstraight h hrun
    have hi : (is ++ [Instr.stop])[k]? = some _ := List.getElem?_eq_getElem (by simpa using Nat.lt_succ_of_le hk)
    rw [instrIndex, List.take_append_of_le_length hk] at hpc
    exact ⟨_, hi, hpc, hs.step_after_run rfl hstraight h hrun hi⟩
  · exact run_succ_last.2 ⟨t, h, hs.step_after_run rfl hstraight h hrun List.getElem?_concat_length⟩

end Sys2Proof.Machine
